-- ==== Sys2Proof/Word.lean ====
section
/-! DEFINITION. The words of the machine (00_scope.md R6: every value is an unsigned bit vector of a stated
width; "byte" is 8 bits, "dword" 32, "qword" 64). -/

namespace Sys2Proof

/-- 8 bits (R6). -/
abbrev Byte := BitVec 8

/-- 32 bits (R6). -/
abbrev Dword := BitVec 32

/-- 64 bits (R6). -/
abbrev Qword := BitVec 64

/-- The 128 bits the instructions read of a vector register (R14; `VLEN_SRC` of R5). -/
abbrev XmmWord := BitVec 128

/-- The widest register that holds an XMM register as its low part (R14: ZMM, 512 bits). -/
abbrev ZmmWord := BitVec 512

end Sys2Proof
end

