-- ==== Sys2Proof/Config.lean ====
section
/-! DEFINITION. The implementation parameters of 00_scope.md R5, as plain data. The spec leaves each of them
open ("arguments of the model"), so they stand in the state as one field that no instruction writes, and a
statement about every state is a statement about every value of them. `MODE` is not here: the state's register
file is of one mode or the other (Machine/State.lean). The model needs no free value: nothing the nine
instructions produce is undefined (93_implementation_defined.md part 1). -/

namespace Sys2Proof

/-- The operating-mode class `MODE` of R5 and R19: 64-bit mode, or a non-64-bit mode taken as 32-bit protected
or compatibility mode with 32-bit default address size (D2). -/
inductive Mode where
  | mode64
  | mode32
  deriving DecidableEq, Repr

/-- The width of an address, of the program counter and of a general register in each mode
(R5 `XLEN_GPR`, R17, R30). -/
def Mode.bits : Mode → Nat
  | .mode64 => 64
  | .mode32 => 32

/-- The architectural exception a memory fault is (R147): #SS(0), #GP(0), #PF(code) or #AC(0). R148 gives the code of
a page fault no width and no layout; that it is 32 bits, the x86 family's, is PRESUMED, and every value of them is
admitted (notes/assumptions/33.md). -/
inductive MemFaultKind where
  | ss
  | gp
  | pf (code : BitVec 32)
  | ac
  deriving DecidableEq, Repr

/-- One line of the platform's refusal of stores: a store of `width` bytes whose address lies from `first` to
`last`, both included, is not admitted, and the platform reports `kind` (R35, R147; D5). Addresses and the
three widths are finitely many, so a list of these lines can write down every predicate `MemAdmit(addr, n)`. -/
structure Denial where
  first : Nat
  last  : Nat
  width : Nat
  kind  : MemFaultKind
  deriving DecidableEq, Repr

/-- The parameters of R5, but for `MODE`. -/
structure Config where
  /-- `HAS_SSE4_1` (R20; D18). -/
  hasSse41 : Bool
  /-- `HAS_AVX` (R20; D18). -/
  hasAvx : Bool
  /-- `HAS_AVX512BW` (R20; D18). -/
  hasAvx512bw : Bool
  /-- `HAS_AVX512DQ` (R20; D18). -/
  hasAvx512dq : Bool
  /-- `OS_SSE_ENABLED` (R21: CR0.EM = 0 and CR4.OSFXSR = 1; D19). -/
  osSse : Bool
  /-- `OS_AVX_ENABLED` (R21: CR4.OSXSAVE = 1 and XCR0[2:1] = 11b; D19). -/
  osAvx : Bool
  /-- `OS_AVX512_ENABLED` (R21: CR4.OSXSAVE = 1, XCR0[7:5] = 111b and XCR0[2:1] = 11b; D19). -/
  osAvx512 : Bool
  /-- `TS`, the task-switched bit (R21: CR0.TS; D19). -/
  ts : Bool
  /-- `ALIGN_CHECK` (R33; D4). -/
  alignCheck : Bool
  /-- `MemAdmit`, as the stores it does not admit and what the platform reports for each; the first line that
  covers a store counts (R35, R147; D5). -/
  denials : List Denial
  /-- What the platform reports for a store that passes the top of the address space and that no line of
  `denials` covers (R147). -/
  topKind : MemFaultKind
  deriving DecidableEq, Repr

end Sys2Proof
end

