-- ==== Sys2Proof/Syntax.lean ====
section
/-! DEFINITION. The nine instructions, one constructor per row of spec/opcode_table.json, with every bit an
admitted encoding of the row leaves open (30_encoding.md). The operand numbers are put together from the
extension bits and the three-bit fields by Machine/Operands.lean (R58, R59), as the rules do. -/

namespace Sys2Proof

/-- The REX byte `0100WRXB` (R53). -/
structure Rex where
  w : Bool
  r : Bool
  x : Bool
  b : Bool
  deriving DecidableEq, Repr

/-- The open fields of a three-byte VEX prefix (R55). `r`, `x`, `b` are the logical bits, the complements of
the stored R̄, X̄, B̄; `vvvv` is the field as stored, which R142 compares with 1111b. -/
structure Vex where
  r    : Bool
  x    : Bool
  b    : Bool
  w    : Bool
  vvvv : BitVec 4
  l    : Bool
  deriving DecidableEq, Repr

/-- The open fields of an EVEX prefix (R56). `r`, `x`, `b`, `rHi` are the logical bits, the complements of the
stored R̄, X̄, B̄, R̄'; `vvvv` and `ll` (L'L) are as stored. -/
structure Evex where
  r    : Bool
  x    : Bool
  b    : Bool
  rHi  : Bool
  w    : Bool
  vvvv : BitVec 4
  ll   : BitVec 2
  deriving DecidableEq, Repr

/-- The prefix part of an encoding, by the three classes of R50. -/
inductive Lead where
  | legacy (rex : Option Rex)
  | vex (p : Vex)
  | evex (p : Evex)
  deriving DecidableEq, Repr

/-- The displacement that `mod` = 00b, 01b or 10b gives (R61). -/
inductive Disp where
  | absent
  | d8 (v : BitVec 8)
  | d32 (v : BitVec 32)
  deriving DecidableEq, Repr

/-- The memory forms of ModRM.r/m (R60 to R63): a base register; the bare 32-bit displacement of `mod` = 00b
with r/m = 101b (RIP-relative in 64-bit mode, absolute in 32-bit mode); a SIB byte; a SIB byte with
`mod` = 00b and base = 101b, which has a 32-bit displacement in place of a base register. -/
inductive Mem where
  | base (rm : BitVec 3) (disp : Disp)
  | disp32 (disp : BitVec 32)
  | sib (scale : BitVec 2) (index base : BitVec 3) (disp : Disp)
  | sibDisp32 (scale : BitVec 2) (index : BitVec 3) (disp : BitVec 32)
  deriving DecidableEq, Repr

/-- Operand 1 as ModRM names it: the register form (`mod` = 11b) or the memory form (R57). -/
inductive Rm where
  | reg (rm : BitVec 3)
  | mem (m : Mem)
  deriving DecidableEq, Repr

/-- What follows the opcode byte: ModRM.reg, ModRM.r/m with its SIB byte and displacement, and `imm8`
(R57, R64). -/
structure Args where
  reg : BitVec 3
  rm  : Rm
  imm : Byte
  deriving DecidableEq, Repr

/-- The nine instructions of R1. -/
inductive Instr where
  /-- Row 1, `66 0F 3A 14 /r ib` (R95). -/
  | pextrb (rex : Option Rex) (a : Args)
  /-- Row 2, `66 0F 3A 16 /r ib` (R96). -/
  | pextrd (rex : Option Rex) (a : Args)
  /-- Row 3, `66 REX.W 0F 3A 16 /r ib` (R97). -/
  | pextrq (rex : Rex) (a : Args)
  /-- Row 4, `VEX.128.66.0F3A.W0 14 /r ib` (R111). -/
  | vpextrbVex (p : Vex) (a : Args)
  /-- Row 5, `VEX.128.66.0F3A.W0 16 /r ib` (R112). -/
  | vpextrdVex (p : Vex) (a : Args)
  /-- Row 6, `VEX.128.66.0F3A.W1 16 /r ib` (R113). -/
  | vpextrqVex (p : Vex) (a : Args)
  /-- Row 7, `EVEX.128.66.0F3A.WIG 14 /r ib` (R126). -/
  | vpextrbEvex (p : Evex) (a : Args)
  /-- Row 8, `EVEX.128.66.0F3A.W0 16 /r ib` (R127). -/
  | vpextrdEvex (p : Evex) (a : Args)
  /-- Row 9, `EVEX.128.66.0F3A.W1 16 /r ib` (R128). -/
  | vpextrqEvex (p : Evex) (a : Args)
  deriving DecidableEq, Repr

/-- The prefix part of an instruction. -/
def Instr.lead : Instr → Lead
  | .pextrb rex _ => .legacy rex
  | .pextrd rex _ => .legacy rex
  | .pextrq rex _ => .legacy (some rex)
  | .vpextrbVex p _ => .vex p
  | .vpextrdVex p _ => .vex p
  | .vpextrqVex p _ => .vex p
  | .vpextrbEvex p _ => .evex p
  | .vpextrdEvex p _ => .evex p
  | .vpextrqEvex p _ => .evex p

/-- What follows the opcode byte of an instruction. -/
def Instr.args : Instr → Args
  | .pextrb _ a => a
  | .pextrd _ a => a
  | .pextrq _ a => a
  | .vpextrbVex _ a => a
  | .vpextrdVex _ a => a
  | .vpextrqVex _ a => a
  | .vpextrbEvex _ a => a
  | .vpextrdEvex _ a => a
  | .vpextrqEvex _ a => a

/-- The bytes of the element an instruction extracts, and so of its memory operand (R31). -/
def Instr.bytes : Instr → Nat
  | .pextrb _ _ => 1
  | .pextrd _ _ => 4
  | .pextrq _ _ => 8
  | .vpextrbVex _ _ => 1
  | .vpextrdVex _ _ => 4
  | .vpextrqVex _ _ => 8
  | .vpextrbEvex _ _ => 1
  | .vpextrdEvex _ _ => 4
  | .vpextrqEvex _ _ => 8

/-- Why the decoder refuses a byte string (D1: with a named reason; R73: a refusal is not a statement that the
processor faults). All of them are safe: the model says nothing of these bytes. -/
inductive Reject where
  /-- The program text ends inside the instruction (R172). -/
  | textEnds
  /-- No row of the opcode table: another first byte, escape, opcode map, implied prefix or opcode byte
  (R65, R72, R73). -/
  | unknownOpcode
  /-- A prefix arrangement R54 does not admit: LOCK, F2, F3, a segment override, 67, a second 66, a second or
  misplaced REX, or a prefix byte before C4 or 62. -/
  | prefixNotAdmitted
  /-- A VEX or EVEX prefix in 32-bit mode whose register-extension bits are not all stored as 1 (R71). -/
  | mode32Extension
  /-- An EVEX field the source does not mention with a value other than its canonical one (R68). -/
  | evexNotCanonical
  /-- EVEX, 32-bit mode, opcode 16, W = 1, `mod` = 01b: no source says how the displacement scales (R69). -/
  | disp8ScaleUnsettled
  deriving DecidableEq, Repr

end Sys2Proof
end

