-- ==== Sys2Proof/WellFormed.lean ====
section
/-! DEFINITION. Which instruction terms are admitted encodings, in each operating mode: the restrictions of
R52 to R73 that the types of Syntax.lean do not already hold. -/

namespace Sys2Proof

/-- r/m = 100b announces a SIB byte, and `mod` = 00b with r/m = 101b or base = 101b carries a 32-bit
displacement instead (R60, R62): those values are other constructors of `Mem`. -/
def Mem.wf : Mem → Bool
  | .base rm disp => rm != 4#3 && !(rm == 5#3 && disp == .absent)
  | .disp32 _ => true
  | .sib _ _ bs disp => !(bs == 5#3 && disp == .absent)
  | .sibDisp32 _ _ _ => true

/-- The operand bytes of an admitted encoding. -/
def Args.wf (a : Args) : Bool :=
  match a.rm with
  | .reg _ => true
  | .mem m => m.wf

/-- `mod` = 01b: an 8-bit displacement. -/
def Rm.hasDisp8 : Rm → Bool
  | .mem (.base _ (.d8 _)) => true
  | .mem (.sib _ _ _ (.d8 _)) => true
  | _ => false

/-- `mod` = 11b: the register form (R57). -/
def Rm.isReg : Rm → Bool
  | .reg _ => true
  | .mem _ => false

/-- A REX byte exists in 64-bit mode only (R53). -/
def rexWf (m : Mode) (rex : Option Rex) : Bool :=
  m == .mode64 || rex == none

/-- A VEX prefix in 32-bit mode has R̄ = X̄ = B̄ = 1 (R71). -/
def Vex.wf (m : Mode) (p : Vex) : Bool :=
  m == .mode64 || (!p.r && !p.x && !p.b)

/-- An EVEX prefix in 32-bit mode has R̄ = X̄ = B̄ = R̄' = 1 (R71), and X̄ = 1 with a register destination
(R68). -/
def Evex.wf (m : Mode) (p : Evex) (a : Args) : Bool :=
  (m == .mode64 || (!p.r && !p.x && !p.b && !p.rHi)) && !(p.x && a.rm.isReg)

/-- An admitted encoding in the mode: the rows and their W bit by mode are those of R65. -/
def WellFormed (m : Mode) : Instr → Bool
  | .pextrb rex a => rexWf m rex && a.wf
  | .pextrd rex a => rexWf m rex && a.wf && !(rex.any (·.w))
  | .pextrq rex a => m == .mode64 && rex.w && a.wf
  | .vpextrbVex p a => p.wf m && a.wf
  | .vpextrdVex p a => p.wf m && a.wf && !(m == .mode64 && p.w)
  | .vpextrqVex p a => p.wf m && a.wf && m == .mode64 && p.w
  | .vpextrbEvex p a => p.wf m a && a.wf
  | .vpextrdEvex p a => p.wf m a && a.wf && !(m == .mode64 && p.w) && !(m == .mode32 && p.w && a.rm.hasDisp8)
  | .vpextrqEvex p a => p.wf m a && a.wf && m == .mode64 && p.w

end Sys2Proof
end

