-- ==== Sys2Proof/Decode.lean ====
section
/-! DEFINITION. From bytes to instructions by the decoding procedure of R74, total and refusing by name, and
back by the layouts of R52, R55 and R56. The layouts are PRESUMED (notes/assumptions/9.md), the refusals the spec's
decisions (18.md), and which name a refusal carries where several apply is a DESIGN CHOICE (19.md). -/

namespace Sys2Proof

/-! ## Operand bytes: ModRM, SIB, displacement, `imm8` (R57 to R64) -/

/-- Four displacement bytes, least significant first (R61). -/
def takeDisp32 : List Byte → Except Reject (BitVec 32 × List Byte)
  | b0 :: b1 :: b2 :: b3 :: rest => .ok (b3 ++ b2 ++ b1 ++ b0, rest)
  | _ => .error .textEnds

/-- The displacement of `mod` = 00b (none), 01b (one byte) or 10b (four bytes) (R61). -/
def takeDisp (mod : BitVec 2) (bs : List Byte) : Except Reject (Disp × List Byte) :=
  if mod = 0#2 then .ok (.absent, bs)
  else if mod = 1#2 then
    match bs with
    | b :: rest => .ok (.d8 b, rest)
    | [] => .error .textEnds
  else
    match takeDisp32 bs with
    | .ok (d, rest) => .ok (.d32 d, rest)
    | .error e => .error e

/-- The SIB byte and its displacement (R62): scale in bits 7:6, index in 5:3, base in 2:0. -/
def takeSib (mod : BitVec 2) : List Byte → Except Reject (Mem × List Byte)
  | [] => .error .textEnds
  | sib :: bs =>
    if mod = 0#2 ∧ sib.extractLsb' 0 3 = 5#3 then
      match takeDisp32 bs with
      | .ok (d, rest) => .ok (.sibDisp32 (sib.extractLsb' 6 2) (sib.extractLsb' 3 3) d, rest)
      | .error e => .error e
    else
      match takeDisp mod bs with
      | .ok (d, rest) =>
        .ok (.sib (sib.extractLsb' 6 2) (sib.extractLsb' 3 3) (sib.extractLsb' 0 3) d, rest)
      | .error e => .error e

/-- The memory form of `mod` ≠ 11b (R60). -/
def takeMem (mod : BitVec 2) (rm : BitVec 3) (bs : List Byte) : Except Reject (Mem × List Byte) :=
  if rm = 4#3 then takeSib mod bs
  else if mod = 0#2 ∧ rm = 5#3 then
    match takeDisp32 bs with
    | .ok (d, rest) => .ok (.disp32 d, rest)
    | .error e => .error e
  else
    match takeDisp mod bs with
    | .ok (d, rest) => .ok (.base rm d, rest)
    | .error e => .error e

/-- Operand 1 (R57): `mod` = 11b is the register form. -/
def takeRm (mod : BitVec 2) (rm : BitVec 3) (bs : List Byte) : Except Reject (Rm × List Byte) :=
  if mod = 3#2 then .ok (.reg rm, bs)
  else
    match takeMem mod rm bs with
    | .ok (mem, rest) => .ok (.mem mem, rest)
    | .error e => .error e

/-- ModRM (`mod` in bits 7:6, `reg` in 5:3, r/m in 2:0), what it announces, and `imm8` last (R57, R64). -/
def takeArgs : List Byte → Except Reject (Args × List Byte)
  | [] => .error .textEnds
  | modrm :: bs =>
    match takeRm (modrm.extractLsb' 6 2) (modrm.extractLsb' 0 3) bs with
    | .error e => .error e
    | .ok (_, []) => .error .textEnds
    | .ok (rm, imm :: rest) => .ok (⟨modrm.extractLsb' 3 3, rm, imm⟩, rest)

/-! ## The three classes (R50 to R56, R65, R74) -/

/-- The legacy prefix bytes R54 lists, 66 among them. -/
def isLegacyPrefix (b : Byte) : Bool :=
  [0x66#8, 0xF0#8, 0xF2#8, 0xF3#8, 0x26#8, 0x2E#8, 0x36#8, 0x3E#8, 0x64#8, 0x65#8, 0x67#8].contains b

/-- Bits 7:4 = 0100b: a REX byte, in 64-bit mode (R53). -/
def isRex (m : Mode) (b : Byte) : Bool :=
  m == .mode64 && b.extractLsb' 4 4 == 4#4

/-- Why a byte is refused that stands where 66, C4, 62 or the escape 0F was wanted. -/
def rejectByte (m : Mode) (b : Byte) : Reject :=
  if isLegacyPrefix b || isRex m b then .prefixNotAdmitted else .unknownOpcode

/-- The fields of a REX byte (R53). -/
def rexOf (b : Byte) : Rex :=
  { w := b.getLsbD 3, r := b.getLsbD 2, x := b.getLsbD 1, b := b.getLsbD 0 }

/-- The fields of the two VEX payload bytes (R55). -/
def vexOf (b1 b2 : Byte) : Vex :=
  { r := !b1.getLsbD 7, x := !b1.getLsbD 6, b := !b1.getLsbD 5
    w := b2.getLsbD 7, vvvv := b2.extractLsb' 3 4, l := b2.getLsbD 2 }

/-- The fields of the three EVEX payload bytes (R56). -/
def evexOf (p0 p1 p2 : Byte) : Evex :=
  { r := !p0.getLsbD 7, x := !p0.getLsbD 6, b := !p0.getLsbD 5, rHi := !p0.getLsbD 4
    w := p1.getLsbD 7, vvvv := p1.extractLsb' 3 4, ll := p2.extractLsb' 5 2 }

/-- The legacy row that the opcode byte and REX.W select (R65). -/
def legacyRow (rex : Option Rex) (op : Byte) (a : Args) : Instr :=
  if op = 0x14#8 then .pextrb rex a
  else
    match rex with
    | none => .pextrd none a
    | some r => if r.w then .pextrq r a else .pextrd (some r) a

/-- After 66 and the REX byte, if any: `0F 3A`, the opcode byte and the operand bytes (R52). -/
def decodeEscape (m : Mode) (rex : Option Rex) : List Byte → Except Reject (Instr × List Byte)
  | e1 :: e2 :: op :: bs =>
    if e1 ≠ 0x0F#8 then
      .error (if e1 = 0xC4#8 ∨ e1 = 0x62#8 then .prefixNotAdmitted else rejectByte m e1)
    else if e2 ≠ 0x3A#8 then .error .unknownOpcode
    else if op ≠ 0x14#8 ∧ op ≠ 0x16#8 then .error .unknownOpcode
    else
      match takeArgs bs with
      | .ok (a, rest) => .ok (legacyRow rex op a, rest)
      | .error e => .error e
  | _ => .error .textEnds

/-- After 66 (R52): an optional REX byte, in 64-bit mode only. -/
def decodeLegacy (m : Mode) : List Byte → Except Reject (Instr × List Byte)
  | b :: bs => if isRex m b then decodeEscape m (some (rexOf b)) bs else decodeEscape m none (b :: bs)
  | [] => .error .textEnds

/-- The VEX row that the opcode byte, VEX.W and the mode select (R65, R114). -/
def vexRow (m : Mode) (p : Vex) (op : Byte) (a : Args) : Instr :=
  if op = 0x14#8 then .vpextrbVex p a
  else if m = .mode64 ∧ p.w = true then .vpextrqVex p a
  else .vpextrdVex p a

/-- After C4 (R55): two payload bytes, the opcode byte and the operand bytes. -/
def decodeVex (m : Mode) : List Byte → Except Reject (Instr × List Byte)
  | b1 :: b2 :: op :: bs =>
    if b1.extractLsb' 0 5 ≠ 3#5 ∨ b2.extractLsb' 0 2 ≠ 1#2 then .error .unknownOpcode
    else if m = .mode32 ∧ b1.extractLsb' 5 3 ≠ 7#3 then .error .mode32Extension
    else if op ≠ 0x14#8 ∧ op ≠ 0x16#8 then .error .unknownOpcode
    else
      match takeArgs bs with
      | .ok (a, rest) => .ok (vexRow m (vexOf b1 b2) op a, rest)
      | .error e => .error e
  | _ => .error .textEnds

/-- The EVEX row that the opcode byte, EVEX.W and the mode select (R65, R129). -/
def evexRow (m : Mode) (p : Evex) (op : Byte) (a : Args) : Instr :=
  if op = 0x14#8 then .vpextrbEvex p a
  else if m = .mode64 ∧ p.w = true then .vpextrqEvex p a
  else .vpextrdEvex p a

/-- The refusals that depend on the ModRM byte: X̄ = 0 with a register destination (R68), and the displacement
whose scale is not settled (R69). -/
def evexArgsReject (m : Mode) (p : Evex) (op : Byte) (a : Args) : Option Reject :=
  if p.x = true ∧ a.rm.isReg = true then some .evexNotCanonical
  else if m = .mode32 ∧ op = 0x16#8 ∧ p.w = true ∧ a.rm.hasDisp8 = true then some .disp8ScaleUnsettled
  else none

/-- After 62 (R56): three payload bytes, the opcode byte and the operand bytes. -/
def decodeEvex (m : Mode) : List Byte → Except Reject (Instr × List Byte)
  | p0 :: p1 :: p2 :: op :: bs =>
    if p0.extractLsb' 0 3 ≠ 3#3 ∨ p1.extractLsb' 0 2 ≠ 1#2 then .error .unknownOpcode
    else if p0.getLsbD 3 = true ∨ p1.getLsbD 2 = false ∨ p2.getLsbD 7 = true ∨ p2.extractLsb' 0 5 ≠ 8#5 then
      .error .evexNotCanonical
    else if m = .mode32 ∧ p0.extractLsb' 4 4 ≠ 15#4 then .error .mode32Extension
    else if op ≠ 0x14#8 ∧ op ≠ 0x16#8 then .error .unknownOpcode
    else
      match takeArgs bs with
      | .ok (a, rest) =>
        match evexArgsReject m (evexOf p0 p1 p2) op a with
        | some e => .error e
        | none => .ok (evexRow m (evexOf p0 p1 p2) op a, rest)
      | .error e => .error e
  | _ => .error .textEnds

/-- The decoding procedure of R74: the instruction at the head of a byte string, with the bytes after it. -/
def decode (m : Mode) : List Byte → Except Reject (Instr × List Byte)
  | [] => .error .textEnds
  | b0 :: bs =>
    if b0 = 0x66#8 then decodeLegacy m bs
    else if b0 = 0xC4#8 then decodeVex m bs
    else if b0 = 0x62#8 then decodeEvex m bs
    else .error (rejectByte m b0)

/-! ## The encoder (R52, R55, R56) and the length (R51) -/

/-- Four bytes, least significant first (R61). -/
def disp32Bytes (d : BitVec 32) : List Byte :=
  [d.extractLsb' 0 8, d.extractLsb' 8 8, d.extractLsb' 16 8, d.extractLsb' 24 8]

/-- The bytes of a displacement (R61). -/
def Disp.encode : Disp → List Byte
  | .absent => []
  | .d8 v => [v]
  | .d32 v => disp32Bytes v

/-- The `mod` field that announces a displacement (R61). -/
def Disp.mod : Disp → BitVec 2
  | .absent => 0#2
  | .d8 _ => 1#2
  | .d32 _ => 2#2

/-- The ModRM byte (R57). -/
def modrmByte (mod : BitVec 2) (reg rm : BitVec 3) : Byte := mod ++ reg ++ rm

/-- The SIB byte (R62). -/
def sibByte (scale : BitVec 2) (index base : BitVec 3) : Byte := scale ++ index ++ base

/-- ModRM, SIB and displacement of a memory form (R60 to R62). -/
def Mem.encode (reg : BitVec 3) : Mem → List Byte
  | .base rm d => modrmByte d.mod reg rm :: d.encode
  | .disp32 d => modrmByte 0#2 reg 5#3 :: disp32Bytes d
  | .sib scale index bs d => modrmByte d.mod reg 4#3 :: sibByte scale index bs :: d.encode
  | .sibDisp32 scale index d => modrmByte 0#2 reg 4#3 :: sibByte scale index 5#3 :: disp32Bytes d

/-- ModRM, SIB and displacement (R57). -/
def Rm.encode (reg : BitVec 3) : Rm → List Byte
  | .reg rm => [modrmByte 3#2 reg rm]
  | .mem m => m.encode reg

/-- The bytes after the opcode byte. -/
def Args.encode (a : Args) : List Byte := a.rm.encode a.reg ++ [a.imm]

/-- The REX byte (R53). -/
def Rex.encode (p : Rex) : Byte :=
  4#4 ++ BitVec.ofBool p.w ++ BitVec.ofBool p.r ++ BitVec.ofBool p.x ++ BitVec.ofBool p.b

/-- The three bytes of a VEX prefix (R55). -/
def Vex.encode (p : Vex) : List Byte :=
  [0xC4#8,
   BitVec.ofBool (!p.r) ++ BitVec.ofBool (!p.x) ++ BitVec.ofBool (!p.b) ++ 3#5,
   BitVec.ofBool p.w ++ p.vvvv ++ BitVec.ofBool p.l ++ 1#2]

/-- The four bytes of an EVEX prefix (R56), the fields of R68 at their canonical values. -/
def Evex.encode (p : Evex) : List Byte :=
  [0x62#8,
   BitVec.ofBool (!p.r) ++ BitVec.ofBool (!p.x) ++ BitVec.ofBool (!p.b) ++ BitVec.ofBool (!p.rHi) ++ 3#4,
   BitVec.ofBool p.w ++ p.vvvv ++ 5#3,
   0#1 ++ p.ll ++ 8#5]

/-- The prefix part (R50). -/
def Lead.encode : Lead → List Byte
  | .legacy none => [0x66#8, 0x0F#8, 0x3A#8]
  | .legacy (some rex) => [0x66#8, rex.encode, 0x0F#8, 0x3A#8]
  | .vex p => p.encode
  | .evex p => p.encode

/-- The opcode byte: 14 for the byte extracts, 16 for the others (R65). -/
def Instr.opcode (i : Instr) : Byte := if i.bytes = 1 then 0x14#8 else 0x16#8

/-- The bytes of an instruction, in address order (R50). -/
def encode (i : Instr) : List Byte := i.lead.encode ++ i.opcode :: i.args.encode

/-- `P` of R51: the length of the prefix part. -/
def Lead.length : Lead → Nat
  | .legacy none => 3
  | .legacy (some _) => 4
  | .vex _ => 3
  | .evex _ => 4

/-- `D` of R51: the length of the displacement. -/
def Disp.length : Disp → Nat
  | .absent => 0
  | .d8 _ => 1
  | .d32 _ => 4

/-- `S + D` of R51: the SIB byte and the displacement. -/
def Rm.extraLength : Rm → Nat
  | .reg _ => 0
  | .mem (.base _ d) => d.length
  | .mem (.disp32 _) => 4
  | .mem (.sib _ _ _ d) => 1 + d.length
  | .mem (.sibDisp32 _ _ _) => 5

/-- `ilen` of R51. -/
def ilen (i : Instr) : Nat := i.lead.length + 1 + 1 + i.args.rm.extraLength + 1

/-! ## The opcode table's words: DESIGN CHOICE, notes/assumptions/30.md -/

/-- `n` bytes of a number, bits 7:0 first. -/
def wordBytes : Nat → Nat → List Byte
  | 0, _ => []
  | n + 1, w => BitVec.ofNat 8 w :: wordBytes n (w / 256)

/-- The longest admitted instruction (R51). -/
def maxLength : Nat := 12

/-- The bytes of a table word in address order, with zero bytes after them up to the longest instruction. -/
def tableBytes (nbits w : Nat) : List Byte :=
  wordBytes ((nbits + 7) / 8) (w % 2 ^ nbits) ++ List.replicate (maxLength - (nbits + 7) / 8) 0#8

/-- The instruction a table word is in 64-bit mode, the mode whose patterns are the table's `match` and
`mask`. -/
def decodeTableWord (nbits w : Nat) : Option Instr :=
  match decode .mode64 (tableBytes nbits w) with
  | .ok (i, _) => some i
  | .error _ => none

end Sys2Proof
end

