-- ==== Sys2Proof/Machine/State.lean ====
section
/-! DEFINITION. The state of the machine (10_state.md, 20_memory.md, 00_scope.md R5), the two ways a step can
stop, and the launch state that stands for reset (R24, R170, R171). -/

namespace Sys2Proof.Machine

/-- The registers whose number and width the operating mode decides: sixteen 64-bit general registers and RIP in
64-bit mode, eight 32-bit general registers and EIP in 32-bit mode (R5, R10, R12, R17). The constructor is the
mode `MODE` (R19). In 32-bit mode a general register is a 32-bit cell and bits 63:32 are not state (R12, D15). -/
inductive Regs where
  | mode64 (gpr : Vector (BitVec 64) 16) (rip : BitVec 64)
  | mode32 (gpr : Vector (BitVec 32) 8) (eip : BitVec 32)
  deriving DecidableEq, Repr

/-- Data memory (R30) as address and byte pairs, addresses strictly rising. An address that is not listed has an
unspecified byte (R24): it reads as nothing. -/
abbrev Memory := List Host.Cell

/-- Everything the spec gives the machine. -/
structure State where
  /-- The operating mode, the general registers and the program counter (R10, R12, R17, R19). -/
  regs : Regs
  /-- The 32 vector registers at their full width; XMM`j` is bits 127:0 (R14, R15). -/
  zmm : Vector ZmmWord 32
  /-- The flags register, which R18 names and no instruction reads or writes. -/
  flags : BitVec 64
  /-- The SIMD control and status register, which R18 names and no instruction reads or writes. -/
  mxcsr : BitVec 32
  /-- Data memory (R30). -/
  mem : Memory
  /-- The address of the first byte of the program text (`base` of R171). -/
  textBase : Nat
  /-- The bytes of the program text, which stand at `textBase` and after and are fixed for the run (R30, R40,
  R171). -/
  text : List Byte
  /-- The parameters of R5, which no instruction writes (R19 to R21). -/
  cfg : Config
  deriving DecidableEq, Repr

/-- The exceptions and the faults of the model: each ends the run, with nothing written (R150; D10). -/
inductive Fault where
  /-- #UD, invalid opcode: an enable or a feature flag is clear, or a reserved prefix field has another value
  than R141 and R142 want. Raised by `State.gate`, with the address of the instruction (R148). Safe: a handler
  might go on, the model does not. -/
  | ud (pc : Nat)
  /-- #NM: the task-switched bit is set (R144, R145). Raised by `State.gate`. Safe, as `ud`. -/
  | nm (pc : Nat)
  /-- #SS(0), #GP(0), #PF(code) or #AC(0) on the memory operand, with its address and width (R147, R148). Raised
  by `State.store`. Safe, as `ud`; the kind is what the parameters say the platform reports. -/
  | memory (kind : MemFaultKind) (pc ea n : Nat)
  /-- A store whose bytes overlap the program text (R40, D21). Raised by `State.store`. Safe: the model gives
  self-modifying code no meaning. -/
  | storeIntoText (pc ea n : Nat)
  deriving DecidableEq, Repr

/-- What the model gives no meaning to. -/
inductive Refusal where
  /-- An instruction whose meaning is not written yet, by its mnemonic. Raised by `exec`. Safe. -/
  | notModelled (mnemonic : String)
  /-- The bytes at the program counter are not an admitted encoding, and why (R73, R172). Raised by `step`.
  Safe. -/
  | undecodable (why : Reject)
  /-- The program counter stands at the first byte after the program text: the run has ended (R172). Raised by
  `State.fetch`. Safe: the model does not say what a processor does there. -/
  | endOfRun
  /-- The program counter stands neither in the program text nor at its end, so the model has no bytes to fetch
  (R172). Raised by `State.fetch`. Safe. -/
  | outsideText
  /-- An instruction term that no byte string of the current mode encodes (R72, R73). Raised by `State.guardEncodable`;
  never reached by `step`, whose decoder gives admitted encodings only. Safe. -/
  | notEncodable
  /-- The address after the instruction does not fit in the program counter (R17, D9). Raised by
  `State.advance`. Safe. -/
  | pcPastTop
  deriving DecidableEq, Repr

/-- The parameters of the launch state: the values 95_test_vectors.md section 2 takes unless a row says
otherwise, DESIGN CHOICE (notes/assumptions/2.md). -/
def Config.launch : Config where
  hasSse41 := true
  hasAvx := true
  hasAvx512bw := true
  hasAvx512dq := true
  osSse := true
  osAvx := true
  osAvx512 := true
  ts := false
  alignCheck := false
  denials := []
  topKind := .gp

/-- The machine at launch. The spec has no reset step and states no reset value (R24, R170), so every value here
is named in a log entry: notes/assumptions/1.md (registers), 2 (parameters), 3 (flags and MXCSR), 4 (memory) and
5 (program text). -/
def State.reset : State where
  regs := .mode64 (.replicate 16 0) 0x400000
  zmm := .replicate 32 (BitVec.setWidth 512 (0 : XmmWord))
  flags := 0x2
  mxcsr := 0x1F80
  mem := []
  textBase := 0x400000
  text := []
  cfg := Config.launch

end Sys2Proof.Machine
end

