-- ==== Sys2Proof/Machine/Ops.lean ====
section
/-! DEFINITION. The named operations over registers, memory, the program text and the program counter, and
raising an exception (R7, R148, R150). There is no return from an exception: no handler runs (R151). -/

namespace Sys2Proof.Machine

/-- What an instruction or a step answers. -/
abbrev Result := Host.Outcome State Fault Refusal

/-! ## Mode, program counter and general registers (R10 to R12, R17, R19) -/

/-- The operating-mode class. -/
def State.mode (s : State) : Mode :=
  match s.regs with
  | .mode64 _ _ => .mode64
  | .mode32 _ _ => .mode32

/-- The address of the first byte of the instruction being executed (R17). -/
def State.pc (s : State) : Nat :=
  match s.regs with
  | .mode64 _ rip => rip.toNat
  | .mode32 _ eip => eip.toNat

/-- The registers with another program counter. -/
def Regs.withPc (r : Regs) (pc : Nat) : Regs :=
  match r with
  | .mode64 gpr _ => .mode64 gpr (BitVec.ofNat 64 pc)
  | .mode32 gpr _ => .mode32 gpr (BitVec.ofNat 32 pc)

/-- `pc <- target` (R7). -/
def State.withPc (s : State) (pc : Nat) : State :=
  { s with regs := s.regs.withPc pc }

/-- `gpr[i]` (R7), widened with zeros to 64 bits in 32-bit mode. A register that the mode does not have reads as
zero; no admitted encoding names one (R10, R58, R71). -/
def State.gpr (s : State) (i : BitVec 4) : BitVec 64 :=
  match s.regs with
  | .mode64 gpr _ => gpr[i.toNat]?.getD 0#64
  | .mode32 gpr _ => (gpr[i.toNat]?.getD 0#32).setWidth 64

/-- The registers with a general register written at the mode's full width: 64 bits in 64-bit mode (R11), 32 in
32-bit mode (R12). -/
def Regs.withGpr (r : Regs) (i : BitVec 4) (v : BitVec 64) : Regs :=
  match r with
  | .mode64 gpr rip => .mode64 (gpr.setIfInBounds i.toNat v) rip
  | .mode32 gpr eip => .mode32 (gpr.setIfInBounds i.toNat (v.setWidth 32)) eip

/-- `gpr[i] <- v` (R7). -/
def State.withGpr (s : State) (i : BitVec 4) (v : BitVec 64) : State :=
  { s with regs := s.regs.withGpr i v }

/-- `xmm[j]`: the low 128 bits of vector register `j` (R14). -/
def State.xmm (s : State) (j : BitVec 5) : XmmWord :=
  (s.zmm[j.toNat]?.getD 0#512).setWidth 128

/-! ## Memory (R30 to R32) -/

/-- The byte at an address; nothing where the byte is unspecified (R24; DESIGN CHOICE, notes/assumptions/4.md). -/
def Memory.read : Memory → Nat → Option Byte
  | [], _ => none
  | (a, b) :: m, addr => if a = addr then some b else Memory.read m addr

/-- Writes one byte, keeping the addresses rising. -/
def Memory.write : Memory → Nat → Byte → Memory
  | [], addr, v => [(addr, v)]
  | (a, b) :: m, addr, v =>
    if addr < a then (addr, v) :: (a, b) :: m
    else if a = addr then (addr, v) :: m
    else (a, b) :: Memory.write m addr v

/-- Byte `k` of a value, bits `8k+7:8k`: the byte at address `addr + k` (R32, little-endian; PRESUMED,
notes/assumptions/21.md). -/
def byteAt (v : BitVec 64) (k : Nat) : Byte := v.extractLsb' (8 * k) 8

/-- `MemWrite(addr, n, v)` (R7, R32). -/
def Memory.writeBytes (m : Memory) (addr : Nat) (v : BitVec 64) : Nat → Memory
  | 0 => m
  | n + 1 => (Memory.writeBytes m addr v n).write (addr + n) (byteAt v n)

/-- The canonical form: addresses strictly rising. An unlisted address reads as nothing, which no entry is
equal to. -/
def Memory.wf : Memory → Bool
  | [] => true
  | [_] => true
  | (a, _) :: (b, y) :: m => decide (a < b) && Memory.wf ((b, y) :: m)

/-- Every listed address is an address of the space. -/
def Memory.below (m : Memory) (top : Nat) : Bool := m.all (fun c => decide (c.1 < top))

/-- The state with other memory. -/
def State.withMem (s : State) (m : Memory) : State := { s with mem := m }

/-! ## Program text (R30, R40, R171, R172) -/

/-- The address after the last byte of the program text. -/
def State.textLimit (s : State) : Nat := s.textBase + s.text.length

/-- The byte at an address, for claims: the program text at its addresses, data memory elsewhere (R30, R171). -/
def State.byte (s : State) (addr : Nat) : Option Byte :=
  if s.textBase ≤ addr ∧ addr < s.textLimit then s.text[addr - s.textBase]? else s.mem.read addr

/-- `MemRead(addr, n)` (R7), as the bytes in address order; no instruction uses it. -/
def State.readBytes (s : State) (addr : Nat) : Nat → Option (List Byte)
  | 0 => some []
  | n + 1 =>
    match s.byte addr, State.readBytes s (addr + 1) n with
    | some b, some bs => some (b :: bs)
    | _, _ => none

/-- Whether a store of `n` bytes at `addr` touches the program text (R40). -/
def State.overlapsText (s : State) (addr n : Nat) : Bool :=
  !s.text.isEmpty && decide (addr < s.textLimit) && decide (s.textBase < addr + n)

/-- The bytes at the program counter, to the end of the program text (R40, R172; the case outside the text is a
DESIGN CHOICE, notes/assumptions/10.md). -/
def State.fetch (s : State) : Except Refusal (List Byte) :=
  if s.pc = s.textLimit then .error .endOfRun
  else if s.textBase ≤ s.pc ∧ s.pc < s.textLimit then .ok (s.text.drop (s.pc - s.textBase))
  else .error .outsideText

/-- The state with a program text placed at an address (R171). -/
def State.withText (s : State) (base : Nat) (bytes : List Byte) : State :=
  { s with textBase := base, text := bytes }

/-! ## Exceptions (R140, R147 to R150) -/

/-- An exception, before it is recorded. -/
inductive Exception where
  | ud
  | nm
  | memory (kind : MemFaultKind) (ea n : Nat)
  deriving DecidableEq, Repr

/-- `raise` (R7): the run ends with the exception's name, the address of the instruction and, for a memory fault,
`EA` and `n`; nothing is written (R148, R150; DEDUCED, notes/assumptions/6.md and 28.md). -/
def State.raise (s : State) : Exception → Result
  | .ud => .fault (.ud s.pc)
  | .nm => .fault (.nm s.pc)
  | .memory kind ea n => .fault (.memory kind s.pc ea n)

/-! What R148 says an exception is in the architecture, read off the recorded fault (PRESUMED, G19;
notes/assumptions/28.md): its vector, its error code, and the linear address a page fault reports. A store into the
program text is a fault of the model and has none of them. -/

/-- The vector and the error code of a memory fault; the code's width is PRESUMED (notes/assumptions/33.md). -/
def recordOf : MemFaultKind → Nat × BitVec 32
  | .ss => (12, 0#32)
  | .gp => (13, 0#32)
  | .pf code => (14, code)
  | .ac => (17, 0#32)

/-- The exception vector. -/
def Fault.vector : Fault → Option Nat
  | .ud _ => some 6
  | .nm _ => some 7
  | .memory kind _ _ _ => some (recordOf kind).1
  | .storeIntoText _ _ _ => none

/-- The error code; #UD and #NM have none. Its 32 bits are PRESUMED (notes/assumptions/33.md). -/
def Fault.errorCode : Fault → Option (BitVec 32)
  | .ud _ => none
  | .nm _ => none
  | .memory kind _ _ _ => some (recordOf kind).2
  | .storeIntoText _ _ _ => none

/-- The address a page fault reports in CR2. R148 says "the faulting linear address" only; that it is the address of
the store's first byte, also where the fault is on a later byte (a store that crosses into another page), is a DESIGN
CHOICE (notes/assumptions/32.md). -/
def Fault.pageFaultAddress : Fault → Option Nat
  | .memory (.pf _) _ ea _ => some ea
  | .memory .ss _ _ _ => none
  | .memory .gp _ _ _ => none
  | .memory .ac _ _ _ => none
  | .ud _ => none
  | .nm _ => none
  | .storeIntoText _ _ _ => none

/-- What the platform reports for a store of `n` bytes at `addr` that `MemAdmit` does not admit; nothing where it
admits the store (R35, R147). -/
def Denial.lookup (ds : List Denial) (addr n : Nat) : Option MemFaultKind :=
  match ds with
  | [] => none
  | d :: ds => if d.first ≤ addr ∧ addr ≤ d.last ∧ d.width = n then some d.kind else Denial.lookup ds addr n

/-- The memory fault of a store of `n` bytes at `addr`, if it raises one: #AC(0) for a misaligned address under
`ALIGN_CHECK` (R33), else what the platform reports for a store it does not admit, or that passes the top of the
address space (R35, R147). The precedence is DEDUCED (notes/assumptions/7.md), the kind at the top a DESIGN CHOICE
(14.md). -/
def State.memoryFault (s : State) (addr n : Nat) : Option MemFaultKind :=
  if s.cfg.alignCheck = true ∧ addr % n ≠ 0 then some .ac
  else
    match Denial.lookup s.cfg.denials addr n with
    | some kind => some kind
    | none => if addr + n > 2 ^ s.mode.bits then some s.cfg.topKind else none

/-- The checks before an operand is touched, steps 1 to 4 of R149: the operating-system enable, the feature
flag, the reserved prefix fields (#UD), then the task-switched bit (#NM). PRESUMED, but for the reserved fields
(notes/assumptions/22.md and 23.md). -/
def State.gate (s : State) (enabled feature reservedOk : Bool) (k : Result) : Result :=
  if enabled = false then s.raise .ud
  else if feature = false then s.raise .ud
  else if reservedOk = false then s.raise .ud
  else if s.cfg.ts = true then s.raise .nm
  else k

/-- Step 0 of R149 for a term: only an admitted encoding of the current mode has a meaning (R72, R73; DESIGN
CHOICE, notes/assumptions/17.md). -/
def State.guardEncodable (s : State) (i : Instr) (k : Result) : Result :=
  if WellFormed s.mode i = true then k else .refused .notEncodable

end Sys2Proof.Machine
end

