-- ==== Sys2Proof/Machine/Flags.lean ====
section
/-! DEFINITION. What an instruction does to the flags: "Flags affected: None." and "SIMD Floating-Point
Exceptions: None." (R18, R154). Completion applies the two functions, so that the rule is said in one place. -/

namespace Sys2Proof.Machine

/-- The flags register after any of the nine instructions (R18). -/
def flagsAfter (flags : BitVec 64) : BitVec 64 := flags

/-- The SIMD control and status register after any of the nine instructions (R18, R154). -/
def mxcsrAfter (mxcsr : BitVec 32) : BitVec 32 := mxcsr

/-- The state with the flags that completion leaves. -/
def State.flagged (s : State) : State :=
  { s with flags := flagsAfter s.flags, mxcsr := mxcsrAfter s.mxcsr }

/-- Completion: `pc <- pc + ilen` (R99, R91), flags as R18 says; refused where the sum does not fit in the program
counter (R17, D9; the place of the check is DEDUCED, notes/assumptions/8.md). -/
def State.advance (s : State) (len : Nat) : Result :=
  if s.pc + len < 2 ^ s.mode.bits then .next (s.flagged.withPc (s.pc + len)) else .refused .pcPastTop

end Sys2Proof.Machine
end

