-- ==== Sys2Proof/Machine/Operands.lean ====
section
/-! DEFINITION. The operands of the nine instructions: register numbers (R58, R59), the effective address
(R60 to R63, R69), the three extractions (R92 to R94) and the destination write (R91). -/

namespace Sys2Proof.Machine

/-! ## Register numbers: PRESUMED, notes/assumptions/9.md -/

/-- The logical extension bit R of ModRM.reg; 0 without a REX byte (R53, R55, R56). -/
def extR : Lead → Bool
  | .legacy rex => rex.any (·.r)
  | .vex p => p.r
  | .evex p => p.r

/-- The logical extension bit X of SIB.index. -/
def extX : Lead → Bool
  | .legacy rex => rex.any (·.x)
  | .vex p => p.x
  | .evex p => p.x

/-- The logical extension bit B of ModRM.r/m and SIB.base. -/
def extB : Lead → Bool
  | .legacy rex => rex.any (·.b)
  | .vex p => p.b
  | .evex p => p.b

/-- The logical bit R' of an EVEX prefix; 0 in the other classes (R59). -/
def extRHi : Lead → Bool
  | .legacy _ => false
  | .vex _ => false
  | .evex p => p.rHi

/-- A general register number: an extension bit above three bits (R58, R60, R62). -/
def gprNum (ext : Bool) (low : BitVec 3) : BitVec 4 := BitVec.ofBool ext ++ low

/-- The number of the source vector register, `{R', R, ModRM.reg}` (R59). -/
def srcNum (l : Lead) (reg : BitVec 3) : BitVec 5 :=
  BitVec.ofBool (extRHi l) ++ BitVec.ofBool (extR l) ++ reg

/-! ## Effective address (R60 to R63), behind one name (D30): PRESUMED, notes/assumptions/9.md and 20.md -/

/-- What an 8-bit displacement is multiplied by: the bytes of the element for EVEX ("Tuple1 Scalar"), nothing for
the other classes (R69). -/
def disp8Scale (l : Lead) (n : Nat) : BitVec 64 :=
  match l with
  | .evex _ => BitVec.ofNat 64 n
  | .legacy _ => 1#64
  | .vex _ => 1#64

/-- The displacement, sign-extended (R61). -/
def dispValue (l : Lead) (n : Nat) : Disp → BitVec 64
  | .absent => 0#64
  | .d8 v => v.signExtend 64 * disp8Scale l n
  | .d32 v => v.signExtend 64

/-- `I` of R62: the scaled index; index 100b with X = 0 means none. -/
def indexValue (s : State) (l : Lead) (scale : BitVec 2) (index : BitVec 3) : BitVec 64 :=
  if gprNum (extX l) index = 4#4 then 0#64 else s.gpr (gprNum (extX l) index) <<< scale.toNat

/-- The sum of R60 to R62 modulo 2^64. The bare 32-bit displacement is relative to the next instruction in
64-bit mode and absolute in 32-bit mode (R63). -/
def addressSum (s : State) (l : Lead) (len n : Nat) : Mem → BitVec 64
  | .base rm d => s.gpr (gprNum (extB l) rm) + dispValue l n d
  | .disp32 d =>
    match s.mode with
    | .mode64 => BitVec.ofNat 64 (s.pc + len) + d.signExtend 64
    | .mode32 => d.signExtend 64
  | .sib scale index base d =>
    s.gpr (gprNum (extB l) base) + indexValue s l scale index + dispValue l n d
  | .sibDisp32 scale index d => indexValue s l scale index + d.signExtend 64

/-- The effective address `EA`: the sum modulo 2^64 in 64-bit mode (R60) and modulo 2^32 in 32-bit mode (R63).
Segment bases are 0 and nothing is translated (R36; DEDUCED, notes/assumptions/24.md). -/
def effAddr (s : State) (l : Lead) (len n : Nat) (m : Mem) : Nat :=
  (addressSum s l len n m).toNat % 2 ^ s.mode.bits

/-! ## Extraction (R92 to R94) -/

/-- `ExtractByte(Src, imm8)` (R92). -/
def extractByte (src : XmmWord) (imm : Byte) : BitVec 8 :=
  let sel := (imm.extractLsb' 0 4).toNat
  ((src >>> (sel * 8)) &&& 0xFF#128).setWidth 8

/-- `ExtractDword(Src, imm8)` (R93). -/
def extractDword (src : XmmWord) (imm : Byte) : BitVec 32 :=
  let sel := (imm.extractLsb' 0 2).toNat
  ((src >>> (sel * 32)) &&& 0xFFFFFFFF#128).setWidth 32

/-- `ExtractQword(Src, imm8)` (R94). -/
def extractQword (src : XmmWord) (imm : Byte) : BitVec 64 :=
  let sel := (imm.extractLsb' 0 1).toNat
  (src >>> (sel * 64)).setWidth 64

/-! ## Destination (R90, R91) -/

/-- Where operand 1 is: a general register, or memory at an address (R57, R90). -/
inductive Dest where
  | reg (d : BitVec 4)
  | mem (ea : Nat)
  deriving DecidableEq, Repr

/-- Operand 1 of an instruction with the prefix `l`, `len` bytes long, on an element of `n` bytes. -/
def dest (s : State) (l : Lead) (len n : Nat) : Rm → Dest
  | .reg rm => .reg (gprNum (extB l) rm)
  | .mem m => .mem (effAddr s l len n m)

/-- The memory arm of `WriteDest` (R91): step 5 of R149, then the store of `n` bytes, unless it would touch the
program text (R40; the order of the two is DEDUCED, notes/assumptions/15.md). -/
def State.store (s : State) (ea n : Nat) (t : BitVec 64) (len : Nat) : Result :=
  match s.memoryFault ea n with
  | some kind => s.raise (.memory kind ea n)
  | none =>
    if s.overlapsText ea n = true then .fault (.storeIntoText s.pc ea n)
    else (s.withMem (s.mem.writeBytes ea t n)).advance len

/-- `WriteDest(T, 8n)` (R91): the extracted value, widened with zeros, to the whole general register or to `n`
bytes of memory; then `pc <- pc + ilen`. -/
def State.writeDest (s : State) (d : Dest) (n : Nat) (t : BitVec 64) (len : Nat) : Result :=
  match d with
  | .reg d => (s.withGpr d t).advance len
  | .mem ea => s.store ea n t len

end Sys2Proof.Machine
end

