-- ==== Sys2Proof/Machine/Evex.lean ====
section
/-! DEFINITION. The EVEX (AVX512BW, AVX512DQ) forms of VPEXTRB, VPEXTRD, VPEXTRQ (42_vpextr_evex.md R125 to
R130). -/

namespace Sys2Proof.Machine

/-- The reserved fields of an EVEX form: L'L = 00b and vvvv = 1111b (R67, R141, R142). -/
def evexReservedOk (p : Evex) : Bool := p.ll == 0#2 && p.vvvv == 15#4

/-- The checks of R149, EVEX column: the AVX-512 enable, the row's feature flag, and the reserved fields. -/
def State.evexGate (s : State) (feature : Bool) (p : Evex) (k : Result) : Result :=
  s.gate s.cfg.osAvx512 feature (evexReservedOk p) k

/-- VPEXTRB reg/m8, xmm2, imm8 (R126), with AVX512BW; EVEX.W is ignored. -/
def execVpextrbEvex (p : Evex) (a : Args) (s : State) : Result :=
  s.guardEncodable (.vpextrbEvex p a) <| s.evexGate s.cfg.hasAvx512bw p <|
    let len := ilen (.vpextrbEvex p a)
    let t := extractByte (s.xmm (srcNum (.evex p) a.reg)) a.imm
    s.writeDest (dest s (.evex p) len 1 a.rm) 1 (t.setWidth 64) len

/-- VPEXTRD r32/m32, xmm2, imm8 (R127), with AVX512DQ; in 32-bit mode also the W1 byte string (R129). -/
def execVpextrdEvex (p : Evex) (a : Args) (s : State) : Result :=
  s.guardEncodable (.vpextrdEvex p a) <| s.evexGate s.cfg.hasAvx512dq p <|
    let len := ilen (.vpextrdEvex p a)
    let t := extractDword (s.xmm (srcNum (.evex p) a.reg)) a.imm
    s.writeDest (dest s (.evex p) len 4 a.rm) 4 (t.setWidth 64) len

/-- VPEXTRQ r64/m64, xmm2, imm8, in 64-bit mode only (R128), with AVX512DQ. -/
def execVpextrqEvex (p : Evex) (a : Args) (s : State) : Result :=
  s.guardEncodable (.vpextrqEvex p a) <| s.evexGate s.cfg.hasAvx512dq p <|
    let len := ilen (.vpextrqEvex p a)
    let t := extractQword (s.xmm (srcNum (.evex p) a.reg)) a.imm
    s.writeDest (dest s (.evex p) len 8 a.rm) 8 t len

end Sys2Proof.Machine
end

