-- ==== Sys2Proof/Machine/Legacy.lean ====
section
/-! DEFINITION. The legacy (SSE4_1) forms: PEXTRB, PEXTRD, PEXTRQ (40_pextr_legacy.md R95 to R97). -/

namespace Sys2Proof.Machine

/-- The checks of R149, legacy column: the SSE enable and SSE4_1; no reserved prefix field. -/
def State.legacyGate (s : State) (k : Result) : Result :=
  s.gate s.cfg.osSse s.cfg.hasSse41 true k

/-- PEXTRB reg/m8, xmm2, imm8 (R95). -/
def execPextrb (rex : Option Rex) (a : Args) (s : State) : Result :=
  s.guardEncodable (.pextrb rex a) <| s.legacyGate <|
    let len := ilen (.pextrb rex a)
    let t := extractByte (s.xmm (srcNum (.legacy rex) a.reg)) a.imm
    s.writeDest (dest s (.legacy rex) len 1 a.rm) 1 (t.setWidth 64) len

/-- PEXTRD r/m32, xmm2, imm8 (R96). -/
def execPextrd (rex : Option Rex) (a : Args) (s : State) : Result :=
  s.guardEncodable (.pextrd rex a) <| s.legacyGate <|
    let len := ilen (.pextrd rex a)
    let t := extractDword (s.xmm (srcNum (.legacy rex) a.reg)) a.imm
    s.writeDest (dest s (.legacy rex) len 4 a.rm) 4 (t.setWidth 64) len

/-- PEXTRQ r/m64, xmm2, imm8, in 64-bit mode only (R97). -/
def execPextrq (rex : Rex) (a : Args) (s : State) : Result :=
  s.guardEncodable (.pextrq rex a) <| s.legacyGate <|
    let len := ilen (.pextrq rex a)
    let t := extractQword (s.xmm (srcNum (.legacy (some rex)) a.reg)) a.imm
    s.writeDest (dest s (.legacy (some rex)) len 8 a.rm) 8 t len

end Sys2Proof.Machine
end

