-- ==== Sys2Proof/Machine/Vex.lean ====
section
/-! DEFINITION. The VEX (AVX) forms of VPEXTRB, VPEXTRD, VPEXTRQ (41_vpextr_vex.md R110 to R115). -/

namespace Sys2Proof.Machine

/-- The reserved fields of a VEX form: L = 0 and vvvv = 1111b (R66, R141, R142). -/
def vexReservedOk (p : Vex) : Bool := !p.l && p.vvvv == 15#4

/-- The checks of R149, VEX column: the AVX enable, AVX, and the reserved fields. -/
def State.vexGate (s : State) (p : Vex) (k : Result) : Result :=
  s.gate s.cfg.osAvx s.cfg.hasAvx (vexReservedOk p) k

/-- VPEXTRB reg/m8, xmm2, imm8 (R111); VEX.W is ignored. -/
def execVpextrbVex (p : Vex) (a : Args) (s : State) : Result :=
  s.guardEncodable (.vpextrbVex p a) <| s.vexGate p <|
    let len := ilen (.vpextrbVex p a)
    let t := extractByte (s.xmm (srcNum (.vex p) a.reg)) a.imm
    s.writeDest (dest s (.vex p) len 1 a.rm) 1 (t.setWidth 64) len

/-- VPEXTRD r32/m32, xmm2, imm8 (R112); in 32-bit mode also the W1 byte string (R114). -/
def execVpextrdVex (p : Vex) (a : Args) (s : State) : Result :=
  s.guardEncodable (.vpextrdVex p a) <| s.vexGate p <|
    let len := ilen (.vpextrdVex p a)
    let t := extractDword (s.xmm (srcNum (.vex p) a.reg)) a.imm
    s.writeDest (dest s (.vex p) len 4 a.rm) 4 (t.setWidth 64) len

/-- VPEXTRQ r64/m64, xmm2, imm8, in 64-bit mode only (R113). -/
def execVpextrqVex (p : Vex) (a : Args) (s : State) : Result :=
  s.guardEncodable (.vpextrqVex p a) <| s.vexGate p <|
    let len := ilen (.vpextrqVex p a)
    let t := extractQword (s.xmm (srcNum (.vex p) a.reg)) a.imm
    s.writeDest (dest s (.vex p) len 8 a.rm) 8 t len

end Sys2Proof.Machine
end

