-- ==== Sys2Proof/Machine/Dispatch.lean ====
section
/-! DEFINITION. One arm per instruction, each a direct call of its meaning. -/

namespace Sys2Proof.Machine

/-- What an instruction does in a state. -/
def exec (i : Instr) (s : State) : Host.Outcome State Fault Refusal :=
  match i with
  | .pextrb rex a => Sys2Proof.Machine.execPextrb rex a s
  | .pextrd rex a => Sys2Proof.Machine.execPextrd rex a s
  | .pextrq rex a => Sys2Proof.Machine.execPextrq rex a s
  | .vpextrbVex p a => Sys2Proof.Machine.execVpextrbVex p a s
  | .vpextrdVex p a => Sys2Proof.Machine.execVpextrdVex p a s
  | .vpextrqVex p a => Sys2Proof.Machine.execVpextrqVex p a s
  | .vpextrbEvex p a => Sys2Proof.Machine.execVpextrbEvex p a s
  | .vpextrdEvex p a => Sys2Proof.Machine.execVpextrdEvex p a s
  | .vpextrqEvex p a => Sys2Proof.Machine.execVpextrqEvex p a s

end Sys2Proof.Machine
end

