-- ==== Sys2Proof/Machine/Step.lean ====
section
/-! DEFINITION. One step: the bytes at the program counter, decoded in the current mode, run. A step ends in the
next state, in a fault (R150) or in a refusal (R172). -/

namespace Sys2Proof.Machine

/-- One step of the machine (R99, R172). -/
def step (s : State) : Host.Outcome State Fault Refusal :=
  match s.fetch with
  | .error r => .refused r
  | .ok bytes =>
    match decode s.mode bytes with
    | .error why => .refused (.undecodable why)
    | .ok (i, _) => exec i s

/-- The state with a table word, and zero bytes up to the longest instruction, as the program text at the program
counter: the load of a program, which the spec makes a launch premise (R171; DESIGN CHOICE, notes/assumptions/5.md). -/
def State.withFetchWord (s : State) (nbits w : Nat) : State := s.withText s.pc (tableBytes nbits w)

end Sys2Proof.Machine
end

