-- ==== Sys2Proof/Safety.lean ====
section
/-! DEFINITION. The terms claims are stated in: what an instruction reads and where it writes, when it executes
without an exception (R149), the end of a run (R172), and the invariant of the state. -/

namespace Sys2Proof.Machine

/-! ## What an instruction needs, by its row (R2, R149) -/

/-- The operating-system enable of the class (step 1 of R149). -/
def osEnabled (c : Config) : Lead → Bool
  | .legacy _ => c.osSse
  | .vex _ => c.osAvx
  | .evex _ => c.osAvx512

/-- The CPUID feature flag of the row (R2; step 2 of R149). -/
def featurePresent (c : Config) (i : Instr) : Bool :=
  match i.lead with
  | .legacy _ => c.hasSse41
  | .vex _ => c.hasAvx
  | .evex _ => if i.bytes = 1 then c.hasAvx512bw else c.hasAvx512dq

/-- The vector-length field is 0: L of a VEX form, L'L of an EVEX form (R141). -/
def lengthOk : Lead → Bool
  | .legacy _ => true
  | .vex p => !p.l
  | .evex p => p.ll == 0#2

/-- The vvvv field is 1111b (R142). -/
def vvvvOk : Lead → Bool
  | .legacy _ => true
  | .vex p => p.vvvv == 15#4
  | .evex p => p.vvvv == 15#4

/-! ## Operands of an instruction in a state (R90) -/

/-- Operand 1: the general register or the address written. -/
def destOf (i : Instr) (s : State) : Dest :=
  dest s i.lead (ilen i) i.bytes i.args.rm

/-- Operand 2: the source, 128 bits. -/
def sourceOf (i : Instr) (s : State) : XmmWord := s.xmm (srcNum i.lead i.args.reg)

/-- The lane that `imm8` selects of a 128-bit source cut into elements of `n` bytes, widened with zeros (R14,
R92 to R94, R98). -/
def lane (n : Nat) (src : XmmWord) (imm : Byte) : BitVec 64 :=
  (src.extractLsb' (8 * n * (imm.toNat % (16 / n))) (8 * n)).setWidth 64

/-- The value the instruction writes. -/
def valueOf (i : Instr) (s : State) : BitVec 64 := lane i.bytes (sourceOf i s) i.args.imm

/-- Steps 1 to 4 of R149 pass. -/
structure Unblocked (i : Instr) (s : State) : Prop where
  enabled : osEnabled s.cfg i.lead = true
  feature : featurePresent s.cfg i = true
  length  : lengthOk i.lead = true
  vvvv    : vvvvOk i.lead = true
  noTs    : s.cfg.ts = false

/-- The memory operand, if operand 1 is one, is written without a fault (step 5 of R149, R40). -/
def Writable (i : Instr) (s : State) : Prop :=
  match destOf i s with
  | .reg _ => True
  | .mem ea => s.memoryFault ea i.bytes = none ∧ s.overlapsText ea i.bytes = false

/-- An admitted encoding that raises no exception, with room for the program counter after it (R17): the
conditions, on the state and the operands alone, under which an instruction completes. -/
structure Ready (i : Instr) (s : State) : Prop extends Unblocked i s where
  encodable : WellFormed s.mode i = true
  writable  : Writable i s
  fits      : s.pc + ilen i < 2 ^ s.mode.bits

/-! ## What an instruction leaves alone -/

/-- Everything but the general registers, the program counter and data memory is as before: the mode, the vector
registers at their full width, the flags and MXCSR, the program text and the parameters (R15, R18, R19 to R21,
R40). -/
structure SameSystem (s t : State) : Prop where
  mode     : t.mode = s.mode
  zmm      : t.zmm = s.zmm
  flags    : t.flags = s.flags
  mxcsr    : t.mxcsr = s.mxcsr
  textBase : t.textBase = s.textBase
  text     : t.text = s.text
  cfg      : t.cfg = s.cfg

/-- The state with other flags and another MXCSR. -/
def State.withFlags (s : State) (flags : BitVec 64) (mxcsr : BitVec 32) : State :=
  { s with flags := flags, mxcsr := mxcsr }

/-- The state with other vector registers. -/
def State.withZmm (s : State) (zmm : Vector ZmmWord 32) : State := { s with zmm := zmm }

/-- A result with its next state, if it is one, changed. -/
def mapNext (f : State → State) : Result → Result
  | .next s => .next (f s)
  | .fault r => .fault r
  | .refused r => .refused r

/-! ## Runs (R172) -/

/-- The run has ended normally: the program counter stands at the first byte after the text. -/
def State.ended (s : State) : Bool := s.pc == s.textLimit

/-- `t` follows `s` after some steps, none of which faults or is refused. -/
inductive Reaches (s : State) : State → Prop where
  | refl : Reaches s s
  | step {t u : State} (h : Reaches s t) (h' : Machine.step t = .next u) : Reaches s u

/-- What holds of the state during a run: memory in canonical form, its addresses in the address space, no byte
of it at an address of the program text, the text inside the address space, and the program counter in the text
or at its end. -/
structure State.Inv (s : State) : Prop where
  sorted   : s.mem.wf = true
  inSpace  : s.mem.below (2 ^ s.mode.bits) = true
  noShadow : ∀ a, s.textBase ≤ a → a < s.textLimit → s.mem.read a = none
  textFits : s.textLimit ≤ 2 ^ s.mode.bits
  pcInText : s.textBase ≤ s.pc ∧ s.pc ≤ s.textLimit

end Sys2Proof.Machine
end

