-- ==== Sys2Proof/Certificates/Slice0/Obligations.lean ====
section
/-! DEFINITION. The statements for the provers. Each docstring names the rule of spec/ it formalises, or, where a
statement rests on a decision or a general-knowledge passage of the spec or on a choice of the model, says so
and names the passage or the log entry. -/

open Sys2Proof Sys2Proof.Machine

/-! ## Extraction (R92 to R94) -/

/-- R92: `SEL := imm8[3:0]`; `TEMP := (Src >> SEL*8) AND FFH`; the result is `TEMP[7:0]`, which is
`Src[8*SEL+7 : 8*SEL]`; bits 7:4 of `imm8` are not read. -/
def Obligations.ByteExtractSelectsLane : Prop :=
  ∀ (src : XmmWord) (imm : Byte),
    extractByte src imm = ((src >>> ((imm.extractLsb' 0 4).toNat * 8)) &&& 0xFF#128).extractLsb' 0 8 ∧
    extractByte src imm = src.extractLsb' (8 * (imm.extractLsb' 0 4).toNat) 8 ∧
    ∀ imm' : Byte, imm'.extractLsb' 0 4 = imm.extractLsb' 0 4 → extractByte src imm' = extractByte src imm

/-- R93: `SEL := imm8[1:0]`; the result is `Src[32*SEL+31 : 32*SEL]`; bits 7:2 of `imm8` are not read. -/
def Obligations.DwordExtractSelectsLane : Prop :=
  ∀ (src : XmmWord) (imm : Byte),
    extractDword src imm = ((src >>> ((imm.extractLsb' 0 2).toNat * 32)) &&& 0xFFFFFFFF#128).extractLsb' 0 32 ∧
    extractDword src imm = src.extractLsb' (32 * (imm.extractLsb' 0 2).toNat) 32 ∧
    ∀ imm' : Byte, imm'.extractLsb' 0 2 = imm.extractLsb' 0 2 → extractDword src imm' = extractDword src imm

/-- R94: `SEL := imm8[0]`; the result is `Src[64*SEL+63 : 64*SEL]`; bits 7:1 of `imm8` are not read; with
`SEL` = 1 the shifted value has no bit above the low 64. -/
def Obligations.QwordExtractSelectsLane : Prop :=
  ∀ (src : XmmWord) (imm : Byte),
    extractQword src imm = (src >>> ((imm.extractLsb' 0 1).toNat * 64)).extractLsb' 0 64 ∧
    extractQword src imm = src.extractLsb' (64 * (imm.extractLsb' 0 1).toNat) 64 ∧
    (∀ imm' : Byte, imm'.extractLsb' 0 1 = imm.extractLsb' 0 1 → extractQword src imm' = extractQword src imm) ∧
    (imm.extractLsb' 0 1 = 1#1 → src >>> ((imm.extractLsb' 0 1).toNat * 64) = (extractQword src imm).setWidth 128)

/-- 95_test_vectors.md section 2.6: the results for all selects, least significant first, give back the
source. -/
def Obligations.LanesReassembleSource : Prop :=
  ∀ src : XmmWord,
    extractByte src 15 ++ extractByte src 14 ++ extractByte src 13 ++ extractByte src 12 ++
      extractByte src 11 ++ extractByte src 10 ++ extractByte src 9 ++ extractByte src 8 ++
      extractByte src 7 ++ extractByte src 6 ++ extractByte src 5 ++ extractByte src 4 ++
      extractByte src 3 ++ extractByte src 2 ++ extractByte src 1 ++ extractByte src 0 = src ∧
    extractDword src 3 ++ extractDword src 2 ++ extractDword src 1 ++ extractDword src 0 = src ∧
    extractQword src 1 ++ extractQword src 0 = src

/-! ## Results: where each instruction completes and what it leaves (R91, R95 to R97, R111 to R113, R126 to R128) -/

/-- PEXTRB, VPEXTRB (VEX) and VPEXTRB (EVEX) with a register destination (constructors `pextrb`, `vpextrbVex`,
`vpextrbEvex`): the selected byte goes to the whole destination register with zeros above it, the program counter
moves past the instruction, and nothing else changes. The register number and the source number are the general
knowledge of R58 and R59. -/
def Obligations.ByteToRegister : Prop :=
  ∀ (i : Instr) (s : State) (d : BitVec 4), i.bytes = 1 → Ready i s → destOf i s = .reg d →
    ∃ t, exec i s = .next t ∧
      t.gpr d = ((sourceOf i s).extractLsb' (8 * (i.args.imm.toNat % 16)) 8).setWidth 64 ∧
      t.pc = s.pc + ilen i ∧ (∀ j, j ≠ d → t.gpr j = s.gpr j) ∧ t.mem = s.mem ∧ SameSystem s t

/-- PEXTRD, VPEXTRD (VEX) and VPEXTRD (EVEX) with a register destination (constructors `pextrd`, `vpextrdVex`,
`vpextrdEvex`, the last two in 32-bit mode with either W): the selected dword with zeros above it. -/
def Obligations.DwordToRegister : Prop :=
  ∀ (i : Instr) (s : State) (d : BitVec 4), i.bytes = 4 → Ready i s → destOf i s = .reg d →
    ∃ t, exec i s = .next t ∧
      t.gpr d = ((sourceOf i s).extractLsb' (32 * (i.args.imm.toNat % 4)) 32).setWidth 64 ∧
      t.pc = s.pc + ilen i ∧ (∀ j, j ≠ d → t.gpr j = s.gpr j) ∧ t.mem = s.mem ∧ SameSystem s t

/-- PEXTRQ, VPEXTRQ (VEX) and VPEXTRQ (EVEX) with a register destination (constructors `pextrq`, `vpextrqVex`,
`vpextrqEvex`), in 64-bit mode, the only mode they have: the selected qword. -/
def Obligations.QwordToRegister : Prop :=
  ∀ (i : Instr) (s : State) (d : BitVec 4), i.bytes = 8 → Ready i s → destOf i s = .reg d →
    s.mode = .mode64 ∧
    ∃ t, exec i s = .next t ∧
      t.gpr d = (sourceOf i s).extractLsb' (64 * (i.args.imm.toNat % 2)) 64 ∧
      t.pc = s.pc + ilen i ∧ (∀ j, j ≠ d → t.gpr j = s.gpr j) ∧ t.mem = s.mem ∧ SameSystem s t

/-- PEXTRB, VPEXTRB (VEX) and VPEXTRB (EVEX) with a memory destination (constructors `pextrb`, `vpextrbVex`,
`vpextrbEvex`): the selected byte at the effective
address, every other byte as before, no register written. -/
def Obligations.ByteToMemory : Prop :=
  ∀ (i : Instr) (s : State) (ea : Nat), i.bytes = 1 → Ready i s → destOf i s = .mem ea →
    ∃ t, exec i s = .next t ∧
      t.byte ea = some ((sourceOf i s).extractLsb' (8 * (i.args.imm.toNat % 16)) 8) ∧
      (∀ a, a ≠ ea → t.byte a = s.byte a) ∧
      t.pc = s.pc + ilen i ∧ (∀ j, t.gpr j = s.gpr j) ∧ SameSystem s t

/-- PEXTRD, VPEXTRD (VEX) and VPEXTRD (EVEX) with a memory destination (constructors `pextrd`, `vpextrdVex`,
`vpextrdEvex`): four bytes of the selected dword, least
significant first (the byte order is the general knowledge of R32, decision D3). -/
def Obligations.DwordToMemory : Prop :=
  ∀ (i : Instr) (s : State) (ea : Nat), i.bytes = 4 → Ready i s → destOf i s = .mem ea →
    ∃ t, exec i s = .next t ∧
      (∀ k, k < 4 →
        t.byte (ea + k) = some ((sourceOf i s).extractLsb' (32 * (i.args.imm.toNat % 4) + 8 * k) 8)) ∧
      (∀ a, a < ea ∨ ea + 4 ≤ a → t.byte a = s.byte a) ∧
      t.pc = s.pc + ilen i ∧ (∀ j, t.gpr j = s.gpr j) ∧ SameSystem s t

/-- PEXTRQ, VPEXTRQ (VEX) and VPEXTRQ (EVEX) with a memory destination (constructors `pextrq`, `vpextrqVex`,
`vpextrqEvex`): eight bytes of the selected qword, least
significant first (R32, D3). -/
def Obligations.QwordToMemory : Prop :=
  ∀ (i : Instr) (s : State) (ea : Nat), i.bytes = 8 → Ready i s → destOf i s = .mem ea →
    ∃ t, exec i s = .next t ∧
      (∀ k, k < 8 →
        t.byte (ea + k) = some ((sourceOf i s).extractLsb' (64 * (i.args.imm.toNat % 2) + 8 * k) 8)) ∧
      (∀ a, a < ea ∨ ea + 8 ≤ a → t.byte a = s.byte a) ∧
      t.pc = s.pc + ilen i ∧ (∀ j, t.gpr j = s.gpr j) ∧ SameSystem s t

/-- R91 with the byte order of R32 (PRESUMED, decision D3, notes/assumptions/21.md): the single write of an
instruction, given a value of 8, 32 or 64 bits: in the register form the whole register, with zeros above the
value; in the memory form 1, 4 or 8 bytes, least significant first; nothing else but `pc <- pc + ilen`. The premises
are those under which it completes: the sum fits (R17), the register exists in the mode, the store is admitted (R147)
and off the program text (R40). -/
def Obligations.DestinationWrite : Prop :=
  (∀ (i : Instr) (s : State), (∃ d, destOf i s = .reg d) ↔ i.args.rm.isReg = true) ∧
  ∀ (s : State) (n : Nat) (t : BitVec 64) (len : Nat), n = 1 ∨ n = 4 ∨ n = 8 → t.toNat < 2 ^ (8 * n) →
    s.pc + len < 2 ^ s.mode.bits →
    (∀ d : BitVec 4, s.mode = .mode64 ∨ d.toNat < 8 ∧ n ≠ 8 →
      ∃ u, s.writeDest (.reg d) n t len = .next u ∧ u.gpr d = t ∧ (∀ j, j ≠ d → u.gpr j = s.gpr j) ∧
        u.mem = s.mem ∧ SameSystem s u ∧ u.pc = s.pc + len) ∧
    (∀ ea, s.memoryFault ea n = none → s.overlapsText ea n = false →
      ∃ u, s.writeDest (.mem ea) n t len = .next u ∧
        (∀ k, k < n → u.byte (ea + k) = some (t.extractLsb' (8 * k) 8)) ∧
        (∀ a, a < ea ∨ ea + n ≤ a → u.byte a = s.byte a) ∧ (∀ j, u.gpr j = s.gpr j) ∧ SameSystem s u ∧
        u.pc = s.pc + len)

/-- R11: in 64-bit mode a register destination is written at its full 64 bits, whichever of the nine encodings
writes it: the element in the low bits, 0 in every bit above it, and no bit of the old value left. -/
def Obligations.RegisterWriteIsFullWidth64 : Prop :=
  ∀ (i : Instr) (s t : State) (d : BitVec 4), s.mode = .mode64 → destOf i s = .reg d → exec i s = .next t →
    (t.gpr d).extractLsb' 0 (8 * i.bytes) =
        (sourceOf i s).extractLsb' (8 * i.bytes * (i.args.imm.toNat % (16 / i.bytes))) (8 * i.bytes) ∧
      (∀ b, 8 * i.bytes ≤ b → (t.gpr d).getLsbD b = false) ∧
      ∀ v, ∃ u, exec i (s.withGpr d v) = .next u ∧ u.gpr d = t.gpr d

/-- R99: an instruction that raises no exception completes by `pc <- pc + ilen`, and the next instruction is
fetched from there; none of the nine has a target or writes a link register. That the sum fits in the program
counter is the premise of R17 (decision D9). -/
def Obligations.CompletionAdvancesPc : Prop :=
  (∀ (i : Instr) (s t : State), exec i s = .next t →
    t.pc = s.pc + ilen i ∧ t.fetch = (s.withPc (s.pc + ilen i)).fetch) ∧
  ∀ (i : Instr) (s : State), WellFormed s.mode i = true → s.pc + ilen i < 2 ^ s.mode.bits →
    (∀ f, exec i s ≠ .fault f) → ∃ t, exec i s = .next t

/-! ## Frames -/

/-- All nine instructions, register form: a next state differs from the old one in the destination register and
the program counter only. -/
def Obligations.RegisterFormFrame : Prop :=
  ∀ (i : Instr) (s t : State) (d : BitVec 4), destOf i s = .reg d → exec i s = .next t →
    (∀ j, j ≠ d → t.gpr j = s.gpr j) ∧ (∀ a, t.byte a = s.byte a) ∧ SameSystem s t

/-- All nine instructions, memory form: a next state differs from the old one in the `n` bytes at the effective
address and the program counter only, `n` being 1, 4 or 8 by the instruction (R31). -/
def Obligations.MemoryFormFrame : Prop :=
  ∀ (i : Instr) (s t : State) (m : Mem), i.args.rm = .mem m → exec i s = .next t →
    (∀ a, a < effAddr s i.lead (ilen i) i.bytes m ∨ effAddr s i.lead (ilen i) i.bytes m + i.bytes ≤ a →
      t.byte a = s.byte a) ∧
    (∀ j, t.gpr j = s.gpr j) ∧ SameSystem s t

/-- R18: no flag is written by any of the nine instructions, and none is read: with other flags and another MXCSR
before, the same happens with those flags and that MXCSR after. -/
def Obligations.FlagsNeitherReadNorWritten : Prop :=
  ∀ (i : Instr) (s : State) (flags : BitVec 64) (mxcsr : BitVec 32),
    (∀ t, exec i s = .next t → t.flags = s.flags ∧ t.mxcsr = s.mxcsr) ∧
    exec i (s.withFlags flags mxcsr) = mapNext (fun t => t.withFlags flags mxcsr) (exec i s)

/-- R13 (general knowledge G12 for the form): the register form reads no general register: with another value in
any of them before, the same happens with that value there after, unless it is the destination. -/
def Obligations.RegisterFormReadsNoGpr : Prop :=
  ∀ (i : Instr) (s : State) (d j : BitVec 4) (v : BitVec 64), destOf i s = .reg d →
    exec i (s.withGpr j v) = mapNext (fun t => if j = d then t else t.withGpr j v) (exec i s)

/-- R31: no instruction of the family reads data memory: with other memory before, the same faults, the same
refusals, and the same next state but for memory, which is then that other memory in the register form and that
other memory with the bytes of the same value stored at the same address in the memory form. That the text does not
move with it is the decision D21. -/
def Obligations.DataMemoryIsNotRead : Prop :=
  ∀ (i : Instr) (s : State) (m : Memory),
    (∀ f, exec i s = .fault f → exec i (s.withMem m) = .fault f) ∧
    (∀ r, exec i s = .refused r → exec i (s.withMem m) = .refused r) ∧
    ∀ t, exec i s = .next t →
      (∀ d, destOf i s = .reg d → exec i (s.withMem m) = .next (t.withMem m)) ∧
      (∀ ea, destOf i s = .mem ea →
        exec i (s.withMem m) = .next (t.withMem (m.writeBytes ea (valueOf i s) i.bytes)))

/-- R64 (derived there): the bits of `imm8` above the select field are ignored: instructions that differ in them
only do the same in every state. -/
def Obligations.ImmediateHighBitsIgnored : Prop :=
  ∀ (i j : Instr) (s : State), j.lead = i.lead → j.bytes = i.bytes → j.args.reg = i.args.reg →
    j.args.rm = i.args.rm → j.args.imm.toNat % (16 / i.bytes) = i.args.imm.toNat % (16 / i.bytes) →
    exec j s = exec i s

/-- R115, R130 (a consequence of both): encodings of different classes with elements of one width, the same
operands and the same `imm8` leave the same state but for the program counter. -/
def Obligations.ClassesAgreeOnResult : Prop :=
  ∀ (i j : Instr) (s t u : State), j.bytes = i.bytes → destOf j s = destOf i s → sourceOf j s = sourceOf i s →
    j.args.imm = i.args.imm → exec i s = .next t → exec j s = .next u → ∀ n, u.withPc n = t.withPc n

/-! ## Exceptions (60_exceptions.md) -/

/-- R141: a VEX form with L = 1, and an EVEX form with L'L above 0, raises #UD, in every mode, in register and
memory form, whatever W is. -/
def Obligations.VectorLengthRaisesUd : Prop :=
  ∀ (i : Instr) (s : State), WellFormed s.mode i = true →
    (∀ p, i.lead = .vex p → p.l = true → exec i s = .fault (.ud s.pc)) ∧
    (∀ p, i.lead = .evex p → 0 < p.ll.toNat → exec i s = .fault (.ud s.pc))

/-- R142: a VEX or EVEX form whose four stored vvvv bits are not 1111b raises #UD, in every mode and form,
whatever W is. -/
def Obligations.UnusedRegisterFieldRaisesUd : Prop :=
  ∀ (i : Instr) (s : State), WellFormed s.mode i = true →
    (∀ p, i.lead = .vex p → p.vvvv ≠ 0b1111#4 → exec i s = .fault (.ud s.pc)) ∧
    (∀ p, i.lead = .evex p → p.vvvv ≠ 0b1111#4 → exec i s = .fault (.ud s.pc))

/-- R66, on the bytes: a VEX form of this family whose byte 2 has bit 2 = 1, or bits 6:3 other than 1111b, is
recognised as this instruction and raises #UD. Recognised: the bytes decode whenever they do with the two fields
at 0 and 1111b, and to an instruction of the same row. -/
def Obligations.VexReservedFieldsRecognisedAndTrap : Prop :=
  ∀ (s : State) (b1 b2 : Byte) (bs : List Byte),
    (b2.getLsbD 2 = true ∨ b2.extractLsb' 3 4 ≠ 0b1111#4) →
    (∀ i rest, decode s.mode (0xC4#8 :: b1 :: ((b2 &&& 0x83#8) ||| 0x78#8) :: bs) = .ok (i, rest) →
      ∃ j, decode s.mode (0xC4#8 :: b1 :: b2 :: bs) = .ok (j, rest) ∧ j.bytes = i.bytes ∧ j.args = i.args) ∧
    (∀ j rest, decode s.mode (0xC4#8 :: b1 :: b2 :: bs) = .ok (j, rest) → exec j s = .fault (.ud s.pc))

/-- R67, on the bytes: an EVEX form of this family whose P2 has bits 6:5 other than 00b, or whose P1 has bits 6:3
other than 1111b, is recognised as this instruction and raises #UD. -/
def Obligations.EvexReservedFieldsRecognisedAndTrap : Prop :=
  ∀ (s : State) (p0 p1 p2 : Byte) (bs : List Byte),
    (p2.extractLsb' 5 2 ≠ 0#2 ∨ p1.extractLsb' 3 4 ≠ 0b1111#4) →
    (∀ i rest,
      decode s.mode (0x62#8 :: p0 :: (p1 ||| 0x78#8) :: (p2 &&& 0x9F#8) :: bs) = .ok (i, rest) →
      ∃ j, decode s.mode (0x62#8 :: p0 :: p1 :: p2 :: bs) = .ok (j, rest) ∧ j.bytes = i.bytes ∧
        j.args = i.args) ∧
    (∀ j rest, decode s.mode (0x62#8 :: p0 :: p1 :: p2 :: bs) = .ok (j, rest) → exec j s = .fault (.ud s.pc))

/-- R146 with D18 and D19 (general knowledge G7, G17, G18): an encoding whose operating-system enable or CPUID
feature flag is clear raises #UD, whatever else is the matter with it. -/
def Obligations.MissingEnableOrFeatureRaisesUd : Prop :=
  ∀ (i : Instr) (s : State), WellFormed s.mode i = true →
    (osEnabled s.cfg i.lead = false ∨ featurePresent s.cfg i = false) → exec i s = .fault (.ud s.pc)

/-- R144, R145 (general knowledge) in the order of R149 (decision D11): with `TS` set an instruction whose #UD
checks pass raises #NM. -/
def Obligations.TaskSwitchedRaisesNm : Prop :=
  ∀ (i : Instr) (s : State), WellFormed s.mode i = true → osEnabled s.cfg i.lead = true →
    featurePresent s.cfg i = true → lengthOk i.lead = true → vvvvOk i.lead = true → s.cfg.ts = true →
    exec i s = .fault (.nm s.pc)

/-- R33 (decision D4), before what the platform reports (notes/assumptions/7.md): with `ALIGN_CHECK` a store to
an address that is not a multiple of its width raises #AC(0). A one-byte store is always aligned. -/
def Obligations.MisalignedStoreRaisesAc : Prop :=
  (∀ (i : Instr) (s : State) (ea : Nat), WellFormed s.mode i = true → Unblocked i s → destOf i s = .mem ea →
    s.cfg.alignCheck = true → ea % i.bytes ≠ 0 → exec i s = .fault (.memory .ac s.pc ea i.bytes)) ∧
  ∀ (i : Instr) (ea : Nat), i.bytes = 1 → ea % i.bytes = 0

/-- R35 and R147 (decisions D5, D28): a store that the platform does not admit, or that passes the top of the
address space, raises a memory fault with its address and width; if it is aligned, or alignment is not checked,
the kind of a store not admitted is the one the platform reports. -/
def Obligations.UnadmittedStoreRaisesMemoryFault : Prop :=
  ∀ (i : Instr) (s : State) (ea : Nat), WellFormed s.mode i = true → Unblocked i s → destOf i s = .mem ea →
    (∀ kind, Denial.lookup s.cfg.denials ea i.bytes = some kind →
      (s.cfg.alignCheck = false ∨ ea % i.bytes = 0) → exec i s = .fault (.memory kind s.pc ea i.bytes)) ∧
    (Denial.lookup s.cfg.denials ea i.bytes ≠ none ∨ 2 ^ s.mode.bits < ea + i.bytes →
      ∃ kind, exec i s = .fault (.memory kind s.pc ea i.bytes))

/-- R40 (decision D21): a store that raises no memory fault but whose bytes overlap the program text is the
fault "store into program text". -/
def Obligations.StoreIntoTextFaults : Prop :=
  ∀ (i : Instr) (s : State) (ea : Nat), WellFormed s.mode i = true → Unblocked i s → destOf i s = .mem ea →
    s.memoryFault ea i.bytes = none →
    (∃ a, ea ≤ a ∧ a < ea + i.bytes ∧ s.textBase ≤ a ∧ a < s.textLimit) →
    exec i s = .fault (.storeIntoText s.pc ea i.bytes)

/-- R140, R149 (decisions D10, D11): a fault is that of an admitted encoding, has one of the causes listed, records the
address of the instruction, and a later check is reported only if the earlier ones pass; the store into the program
text comes last (DEDUCED, notes/assumptions/15.md). -/
def Obligations.FaultHasAListedCause : Prop :=
  ∀ (i : Instr) (s : State) (f : Fault), exec i s = .fault f → WellFormed s.mode i = true ∧
    ((f = .ud s.pc ∧ (osEnabled s.cfg i.lead = false ∨ featurePresent s.cfg i = false ∨
        lengthOk i.lead = false ∨ vvvvOk i.lead = false)) ∨
      (f = .nm s.pc ∧ osEnabled s.cfg i.lead = true ∧ featurePresent s.cfg i = true ∧
        lengthOk i.lead = true ∧ vvvvOk i.lead = true ∧ s.cfg.ts = true) ∨
      (Unblocked i s ∧ ∃ ea, destOf i s = .mem ea ∧
        ((∃ kind, s.memoryFault ea i.bytes = some kind ∧ f = .memory kind s.pc ea i.bytes) ∨
          (s.memoryFault ea i.bytes = none ∧ f = .storeIntoText s.pc ea i.bytes ∧
            ∃ a, ea ≤ a ∧ a < ea + i.bytes ∧ s.textBase ≤ a ∧ a < s.textLimit))))

/-- R148 (PRESUMED, general knowledge G19, notes/assumptions/28.md): #UD is vector 6 and #NM vector 7, without error
code; a memory fault, on the memory operand, is vector 12, 13 or 17 with error code 0, or vector 14 with the
platform's code (32 bits, PRESUMED, notes/assumptions/33.md) and the address of the store's first byte (DESIGN CHOICE,
notes/assumptions/32.md); only a page fault reports an address, and only a store into the program text has no vector. -/
def Obligations.FaultRecords : Prop :=
  ∀ (i : Instr) (s : State) (f : Fault), exec i s = .fault f →
    (f.vector = none ↔ ∃ ea n, f = .storeIntoText s.pc ea n) ∧
    (f.pageFaultAddress ≠ none → f.vector = some 14) ∧
    ∀ v, f.vector = some v →
      (v = 6 ∧ f = .ud s.pc ∧ f.errorCode = none) ∨
      (v = 7 ∧ f = .nm s.pc ∧ f.errorCode = none) ∨
      ∃ kind ea, destOf i s = .mem ea ∧ f = .memory kind s.pc ea i.bytes ∧
        ((kind = .ss ∧ v = 12 ∧ f.errorCode = some 0) ∨
          (kind = .gp ∧ v = 13 ∧ f.errorCode = some 0) ∨
          (∃ code, kind = .pf code ∧ v = 14 ∧ f.errorCode = some code ∧ f.pageFaultAddress = some ea) ∨
          (kind = .ac ∧ v = 17 ∧ f.errorCode = some 0))

/-- R17 (decision D9; the order is notes/assumptions/8.md): an admitted encoding is refused exactly where nothing
else stops it and the address after it does not fit in the program counter; so every other run of it completes or
faults. -/
def Obligations.AdmittedEncodingRefusedOnlyAtTop : Prop :=
  ∀ (i : Instr) (s : State), WellFormed s.mode i = true → ∀ r,
    exec i s = .refused r ↔
      r = .pcPastTop ∧ Unblocked i s ∧ Writable i s ∧ 2 ^ s.mode.bits ≤ s.pc + ilen i

/-- R72: no byte string in 32-bit mode is PEXTRQ, and the bytes `66 48 …` are refused as unknown there; nor is any
byte string a qword extract of the other classes (R114, R129). -/
def Obligations.NoQwordExtractInMode32 : Prop :=
  (∀ bs i rest, decode .mode32 bs = .ok (i, rest) → i.bytes ≠ 8) ∧
  ∀ b1 b2 bs, decode .mode32 (0x66#8 :: 0x48#8 :: b1 :: b2 :: bs) = .error .unknownOpcode

/-- R140, last sentence: no exception depends on the value of `imm8`, on the data in the source register (nor on
which it is), or on the old value of the destination. -/
def Obligations.FaultsIgnoreDataAndImmediate : Prop :=
  ∀ (i j : Instr) (s : State) (f : Fault), j.lead = i.lead → j.bytes = i.bytes → j.args.rm = i.args.rm →
    (∀ zmm, exec i s = .fault f ↔ exec j (s.withZmm zmm) = .fault f) ∧
    (∀ d v, destOf i s = .reg d → (exec i s = .fault f ↔ exec j (s.withGpr d v) = .fault f)) ∧
    (∀ m, exec i s = .fault f ↔ exec j (s.withMem m) = .fault f)

/-! ## Operands (R58 to R63, R69; general knowledge G3, G11 to G15) -/

/-- R53, R55, R56, R58, R59: the destination number is `8*B + r/m`, the source number `16*R' + 8*R + reg`, in both
forms; B, R and R' are the fields of the encoding's own prefix, 0 without a REX byte and where the class has no such
field; so without a REX byte r/m 4 to 7 are registers 4 to 7. -/
def Obligations.RegisterNumbers : Prop :=
  ∀ (i : Instr) (s : State),
    let bitB : Bool := match i.lead with
      | .legacy none => false
      | .legacy (some rex) => rex.b
      | .vex p => p.b
      | .evex p => p.b
    let bitR : Bool := match i.lead with
      | .legacy none => false
      | .legacy (some rex) => rex.r
      | .vex p => p.r
      | .evex p => p.r
    let bitRHi : Bool := match i.lead with
      | .legacy _ => false
      | .vex _ => false
      | .evex p => p.rHi
    (∀ rm, i.args.rm = .reg rm → ∃ d, destOf i s = .reg d ∧ d.toNat = 8 * bitB.toNat + rm.toNat) ∧
    (∃ j, sourceOf i s = s.xmm j ∧ j.toNat = 16 * bitRHi.toNat + 8 * bitR.toNat + i.args.reg.toNat) ∧
    (∀ rm, i.lead = .legacy none → i.args.rm = .reg rm → destOf i s = .reg (rm.setWidth 4))

/-- R53, R55, R56, R60 to R62 and R69 in 64-bit mode, in the integers: base, scaled index and sign-extended
displacement added modulo 2^64; the base register is `8*B + base`, the index register `8*X + index` but for none at
index 100b with X = 0, B and X being the fields of the encoding's own prefix; an 8-bit displacement counts `n` times
in an EVEX form and once in the others; the bare 32-bit displacement counts from the next instruction. -/
def Obligations.EffectiveAddressMode64 : Prop :=
  ∀ (s : State) (l : Lead) (len n : Nat), s.mode = .mode64 →
    let bitB : Bool := match l with
      | .legacy none => false
      | .legacy (some rex) => rex.b
      | .vex p => p.b
      | .evex p => p.b
    let bitX : Bool := match l with
      | .legacy none => false
      | .legacy (some rex) => rex.x
      | .vex p => p.x
      | .evex p => p.x
    let factor : Int := match l with
      | .evex _ => n
      | _ => 1
    let disp : Disp → Int := fun d => match d with
      | .absent => 0
      | .d8 v => v.toInt * factor
      | .d32 v => v.toInt
    let reg : Bool → BitVec 3 → Int := fun ext r => (s.gpr (BitVec.ofNat 4 (8 * ext.toNat + r.toNat))).toNat
    let index : BitVec 2 → BitVec 3 → Int := fun scale idx =>
      if bitX = false ∧ idx = 4#3 then 0 else reg bitX idx * 2 ^ scale.toNat
    (∀ rm d, (effAddr s l len n (.base rm d) : Int) = (reg bitB rm + disp d) % 2 ^ 64) ∧
    (∀ d, (effAddr s l len n (.disp32 d) : Int) = ((s.pc + len : Nat) + d.toInt) % 2 ^ 64) ∧
    (∀ scale idx b d, (effAddr s l len n (.sib scale idx b d) : Int) =
      (reg bitB b + index scale idx + disp d) % 2 ^ 64) ∧
    (∀ scale idx d, (effAddr s l len n (.sibDisp32 scale idx d) : Int) = (index scale idx + d.toInt) % 2 ^ 64)

/-- R63: in 32-bit mode the same sums with 32-bit registers modulo 2^32, and the bare 32-bit displacement absolute.
The premise is that the prefix has no REX byte and its fields X and B are 0, as every admitted encoding of the mode
has them (R53, R71). -/
def Obligations.EffectiveAddressMode32 : Prop :=
  ∀ (s : State) (l : Lead) (len n : Nat), s.mode = .mode32 →
    (l = .legacy none ∨ (∃ p, l = .vex p ∧ p.x = false ∧ p.b = false) ∨
      ∃ p, l = .evex p ∧ p.x = false ∧ p.b = false) →
    let reg : BitVec 3 → BitVec 32 := fun r => (s.gpr (r.setWidth 4)).setWidth 32
    let disp : Disp → BitVec 32 := fun d => match d with
      | .absent => 0
      | .d8 v => match l with
        | .evex _ => v.signExtend 32 * BitVec.ofNat 32 n
        | _ => v.signExtend 32
      | .d32 v => v
    let index : BitVec 2 → BitVec 3 → BitVec 32 := fun scale idx =>
      if idx = 4#3 then 0 else reg idx <<< scale.toNat
    (∀ rm d, effAddr s l len n (.base rm d) = (reg rm + disp d).toNat) ∧
    (∀ d, effAddr s l len n (.disp32 d) = d.toNat) ∧
    (∀ scale idx b d, effAddr s l len n (.sib scale idx b d) = (reg b + index scale idx + disp d).toNat) ∧
    (∀ scale idx d, effAddr s l len n (.sibDisp32 scale idx d) = (index scale idx + d).toNat)

/-! ## Encoding (30_encoding.md; general knowledge G10 to G16) -/

/-- Decoding the encoding of an admitted instruction gives it back, with the bytes after it, in either mode and
with every operand at every value. -/
def Obligations.DecodeOfEncode : Prop :=
  ∀ (m : Mode) (i : Instr) (rest : List Byte), WellFormed m i = true → decode m (encode i ++ rest) = .ok (i, rest)

/-- What the decoder accepts is an admitted encoding, byte for byte the encoding of the instruction it answers: no
two byte strings are the same instruction, and no bit of one is dropped. -/
def Obligations.EncodeOfDecode : Prop :=
  ∀ (m : Mode) (bs : List Byte) (i : Instr) (rest : List Byte), decode m bs = .ok (i, rest) →
    WellFormed m i = true ∧ encode i ++ rest = bs

/-- R51 (general knowledge G10 to G15 for the layouts): the length the model uses is that of the bytes read, so that
moving the program counter by it moves past the instruction; it is 6 to 12 bytes. -/
def Obligations.DecodedLength : Prop :=
  ∀ (m : Mode) (bs : List Byte) (i : Instr) (rest : List Byte), decode m bs = .ok (i, rest) →
    bs.length = ilen i + rest.length ∧ 6 ≤ ilen i ∧ ilen i ≤ 12

/-- The worked examples of R95 to R97, R111 to R113 and R126 to R128, as their bytes are given there. -/
def Obligations.WorkedExamplesDecode : Prop :=
  decode .mode64 [0x66, 0x0F, 0x3A, 0x14, 0xC8, 0x05] = .ok (.pextrb none ⟨1, .reg 0, 5⟩, []) ∧
  decode .mode64 [0x66, 0x0F, 0x3A, 0x16, 0xCB, 0x02] = .ok (.pextrd none ⟨1, .reg 3, 2⟩, []) ∧
  decode .mode64 [0x66, 0x48, 0x0F, 0x3A, 0x16, 0xCA, 0x01] =
    .ok (.pextrq ⟨true, false, false, false⟩ ⟨1, .reg 2, 1⟩, []) ∧
  decode .mode64 [0xC4, 0xE3, 0x79, 0x14, 0xC8, 0x05] =
    .ok (.vpextrbVex ⟨false, false, false, false, 15, false⟩ ⟨1, .reg 0, 5⟩, []) ∧
  decode .mode64 [0xC4, 0xE3, 0x79, 0x16, 0xC8, 0x01] =
    .ok (.vpextrdVex ⟨false, false, false, false, 15, false⟩ ⟨1, .reg 0, 1⟩, []) ∧
  decode .mode64 [0xC4, 0xC3, 0xF9, 0x16, 0xCA, 0x01] =
    .ok (.vpextrqVex ⟨false, false, true, true, 15, false⟩ ⟨1, .reg 2, 1⟩, []) ∧
  decode .mode64 [0x62, 0xF3, 0x7D, 0x08, 0x14, 0xC8, 0x05] =
    .ok (.vpextrbEvex ⟨false, false, false, false, false, 15, 0⟩ ⟨1, .reg 0, 5⟩, []) ∧
  decode .mode64 [0x62, 0xE3, 0x7D, 0x08, 0x16, 0xC9, 0x03] =
    .ok (.vpextrdEvex ⟨false, false, false, true, false, 15, 0⟩ ⟨1, .reg 1, 3⟩, []) ∧
  decode .mode64 [0x62, 0xF3, 0xFD, 0x08, 0x16, 0xC8, 0x00] =
    .ok (.vpextrqEvex ⟨false, false, false, false, true, 15, 0⟩ ⟨1, .reg 0, 0⟩, [])

/-- R65: which instruction a well-formed byte string selects, by class, opcode byte, W bit and mode. The element
width and the class name the row. That no other opcode byte is accepted is the spec's decision D1. -/
def Obligations.OpcodeMap : Prop :=
  ∀ (m : Mode) (op : Byte) (bs : List Byte) (i : Instr) (rest : List Byte),
    (decode m (0x66#8 :: 0x0F#8 :: 0x3A#8 :: op :: bs) = .ok (i, rest) →
      i.lead = .legacy none ∧ (op = 0x14#8 ∧ i.bytes = 1 ∨ op = 0x16#8 ∧ i.bytes = 4)) ∧
    (∀ rex, rex.extractLsb' 4 4 = 4#4 →
      (decode .mode64 (0x66#8 :: rex :: 0x0F#8 :: 0x3A#8 :: op :: bs) = .ok (i, rest) →
        i.lead = .legacy (some (rexOf rex)) ∧
        (op = 0x14#8 ∧ i.bytes = 1 ∨ op = 0x16#8 ∧ rex.getLsbD 3 = false ∧ i.bytes = 4 ∨
          op = 0x16#8 ∧ rex.getLsbD 3 = true ∧ i.bytes = 8)) ∧
      (∀ o, decode .mode32 (0x66#8 :: rex :: 0x0F#8 :: 0x3A#8 :: op :: bs) ≠ .ok o)) ∧
    (∀ b1 b2, decode m (0xC4#8 :: b1 :: b2 :: op :: bs) = .ok (i, rest) →
      i.lead = .vex (vexOf b1 b2) ∧
      (op = 0x14#8 ∧ i.bytes = 1 ∨ op = 0x16#8 ∧ (m = .mode32 ∨ b2.getLsbD 7 = false) ∧ i.bytes = 4 ∨
        op = 0x16#8 ∧ m = .mode64 ∧ b2.getLsbD 7 = true ∧ i.bytes = 8)) ∧
    (∀ p0 p1 p2, decode m (0x62#8 :: p0 :: p1 :: p2 :: op :: bs) = .ok (i, rest) →
      i.lead = .evex (evexOf p0 p1 p2) ∧
      (op = 0x14#8 ∧ i.bytes = 1 ∨ op = 0x16#8 ∧ (m = .mode32 ∨ p1.getLsbD 7 = false) ∧ i.bytes = 4 ∨
        op = 0x16#8 ∧ m = .mode64 ∧ p1.getLsbD 7 = true ∧ i.bytes = 8))

/-- R70: the W bit. (a) PEXTRB ignores REX.W; (b) legacy opcode 16 is PEXTRQ with REX.W = 1, else PEXTRD;
(d) in 64-bit mode VEX and EVEX opcode 16 is VPEXTRQ with W = 1, else VPEXTRD; (e) in 32-bit mode it is VPEXTRD
whichever W is, and the byte string with the other W bit decodes too and does the same, but for the EVEX form with
an 8-bit displacement, which the decision D23 refuses with W = 1; (c), (f) VPEXTRB is VPEXTRB whichever W is, and the
byte string with the other W bit decodes too and does the same, in every mode. -/
def Obligations.WBitRules : Prop :=
  ∀ (m : Mode) (op : Byte) (bs : List Byte) (i : Instr) (rest : List Byte),
    (∀ rex : Byte, rex.extractLsb' 4 4 = 4#4 →
      decode .mode64 (0x66#8 :: rex :: 0x0F#8 :: 0x3A#8 :: op :: bs) = .ok (i, rest) →
      (op = 0x16#8 → i.bytes = if rex.getLsbD 3 = true then 8 else 4) ∧
      (op = 0x14#8 → i.bytes = 1 ∧
        ∃ j, decode .mode64 (0x66#8 :: (rex ^^^ 0x08#8) :: 0x0F#8 :: 0x3A#8 :: op :: bs) = .ok (j, rest) ∧
          j.bytes = 1 ∧ ∀ s, s.mode = .mode64 → exec j s = exec i s)) ∧
    (decode m (0x66#8 :: 0x0F#8 :: 0x3A#8 :: 0x16#8 :: bs) = .ok (i, rest) → i.bytes = 4) ∧
    (∀ b1 b2, decode m (0xC4#8 :: b1 :: b2 :: op :: bs) = .ok (i, rest) →
      (op = 0x16#8 → i.bytes = if m = .mode64 ∧ b2.getLsbD 7 = true then 8 else 4) ∧
      (op = 0x14#8 → i.bytes = 1) ∧
      (op = 0x14#8 ∨ m = .mode32 →
        ∃ j, decode m (0xC4#8 :: b1 :: (b2 ^^^ 0x80#8) :: op :: bs) = .ok (j, rest) ∧ j.bytes = i.bytes ∧
          ∀ s, s.mode = m → exec j s = exec i s)) ∧
    (∀ p0 p1 p2, decode m (0x62#8 :: p0 :: p1 :: p2 :: op :: bs) = .ok (i, rest) →
      (op = 0x16#8 → i.bytes = if m = .mode64 ∧ p1.getLsbD 7 = true then 8 else 4) ∧
      (op = 0x14#8 → i.bytes = 1) ∧
      (op = 0x14#8 ∨ m = .mode32 ∧ i.args.rm.hasDisp8 = false →
        ∃ j, decode m (0x62#8 :: p0 :: (p1 ^^^ 0x80#8) :: p2 :: op :: bs) = .ok (j, rest) ∧ j.bytes = i.bytes ∧
          ∀ s, s.mode = m → exec j s = exec i s))

/-- R114: in 32-bit mode VEX.W is ignored, so the W1 byte string of the VPEXTRQ row is VPEXTRD, with a 4-byte element,
and does what the W0 byte string does; and VPEXTRB ignores W in every mode. Here: a VEX byte string is VPEXTRD for
opcode 16 and VPEXTRB for opcode 14, the one with the other W bit decodes to the same row and operands, and their
instructions do the same in every state, in 32-bit mode for both opcode bytes and in 64-bit mode for opcode 14. -/
def Obligations.VexWIgnored : Prop :=
  ∀ (m : Mode) (b1 b2 op : Byte) (bs : List Byte), m = .mode32 ∨ op = 0x14#8 →
    ∀ i rest, decode m (0xC4#8 :: b1 :: b2 :: op :: bs) = .ok (i, rest) →
      (op = 0x16#8 → i = .vpextrdVex (vexOf b1 b2) i.args ∧ i.bytes = 4) ∧
      (op = 0x14#8 → i = .vpextrbVex (vexOf b1 b2) i.args ∧ i.bytes = 1) ∧
      ∃ j, decode m (0xC4#8 :: b1 :: (b2 ^^^ 0x80#8) :: op :: bs) = .ok (j, rest) ∧ j.bytes = i.bytes ∧
        j.args = i.args ∧ ∀ s, s.mode = m → exec j s = exec i s

/-- R129: in 32-bit mode the EVEX W1 byte string of opcode 16 executes as VPEXTRD, with a 4-byte element, but with
`mod` = 01b the model refuses it; EVEX VPEXTRB ignores W in every mode. (The refusal is the decision D23.) -/
def Obligations.EvexWIgnored : Prop :=
  (∀ (m : Mode) (p0 p1 p2 op : Byte) (bs : List Byte), m = .mode32 ∨ op = 0x14#8 →
    ∀ i rest, decode m (0x62#8 :: p0 :: p1 :: p2 :: op :: bs) = .ok (i, rest) →
      (op = 0x16#8 → i = .vpextrdEvex (evexOf p0 p1 p2) i.args ∧ i.bytes = 4) ∧
      (op = 0x14#8 → i = .vpextrbEvex (evexOf p0 p1 p2) i.args ∧ i.bytes = 1) ∧
      (op = 0x14#8 ∨ i.args.rm.hasDisp8 = false →
        ∃ j, decode m (0x62#8 :: p0 :: (p1 ^^^ 0x80#8) :: p2 :: op :: bs) = .ok (j, rest) ∧ j.bytes = i.bytes ∧
          j.args = i.args ∧ ∀ s, s.mode = m → exec j s = exec i s)) ∧
  (∀ (p0 p1 p2 : Byte) (bs : List Byte) (i : Instr) (rest : List Byte), p1.getLsbD 7 = false →
    decode .mode32 (0x62#8 :: p0 :: p1 :: p2 :: 0x16#8 :: bs) = .ok (i, rest) → i.args.rm.hasDisp8 = true →
    decode .mode32 (0x62#8 :: p0 :: (p1 ^^^ 0x80#8) :: p2 :: 0x16#8 :: bs) = .error .disp8ScaleUnsettled)

/-- R54 (decisions D17, D27): LOCK, REP, segment overrides and 67 at the head, a second 66, a REX byte out of its
place, and any of these, 66 or REX before C4 or 62 are refused by name. -/
def Obligations.OtherPrefixesRefused : Prop :=
  ∀ (m : Mode) (bs : List Byte),
    (∀ p ∈ [0xF0#8, 0xF2#8, 0xF3#8, 0x26#8, 0x2E#8, 0x36#8, 0x3E#8, 0x64#8, 0x65#8, 0x67#8],
      decode m (p :: bs) = .error .prefixNotAdmitted ∧
      ∀ b1 b2, decode m (0x66#8 :: p :: b1 :: b2 :: bs) = .error .prefixNotAdmitted) ∧
    (∀ p ∈ [0x66#8, 0xC4#8, 0x62#8], ∀ b1 b2,
      decode m (0x66#8 :: p :: b1 :: b2 :: bs) = .error .prefixNotAdmitted) ∧
    (∀ rex : Byte, rex.extractLsb' 4 4 = 4#4 → decode .mode64 (rex :: bs) = .error .prefixNotAdmitted ∧
      ∀ rex' b1 b2 : Byte, rex'.extractLsb' 4 4 = 4#4 →
        decode .mode64 (0x66#8 :: rex :: rex' :: b1 :: b2 :: bs) = .error .prefixNotAdmitted)

/-- R68 (decision D16): an EVEX form is admitted only with `aaa` = 000b, `z` = 0, `b` = 0, V̄' = 1, P0 bit 3 = 0,
P1 bit 2 = 1, and X̄ = 1 in the register form. -/
def Obligations.EvexAdmittedOnlyCanonical : Prop :=
  ∀ (m : Mode) (p0 p1 p2 : Byte) (bs : List Byte) (i : Instr) (rest : List Byte),
    decode m (0x62#8 :: p0 :: p1 :: p2 :: bs) = .ok (i, rest) →
    p2.extractLsb' 0 3 = 0#3 ∧ p2.getLsbD 7 = false ∧ p2.getLsbD 4 = false ∧ p2.getLsbD 3 = true ∧
    p0.getLsbD 3 = false ∧ p1.getLsbD 2 = true ∧ (i.args.rm.isReg = true → p0.getLsbD 6 = true)

/-- R71 (decision D24): in 32-bit mode a VEX form is admitted only with R̄ = X̄ = B̄ = 1 and an EVEX form only with
R̄ = X̄ = B̄ = R̄' = 1; so both name registers below 8 only. -/
def Obligations.Mode32ExtensionBitsAreOnes : Prop :=
  (∀ b1 bs i rest, decode .mode32 (0xC4#8 :: b1 :: bs) = .ok (i, rest) → b1.extractLsb' 5 3 = 0b111#3) ∧
  (∀ p0 bs i rest, decode .mode32 (0x62#8 :: p0 :: bs) = .ok (i, rest) → p0.extractLsb' 4 4 = 0b1111#4) ∧
  ∀ bs i rest, decode .mode32 bs = .ok (i, rest) → (srcNum i.lead i.args.reg).toNat < 8 ∧
    ∀ (s : State) (d : BitVec 4), destOf i s = .reg d → d.toNat < 8

/-! ## The machine (R30, R40, R170 to R172) -/

/-- A step runs the decoded instruction: when the bytes at the program counter, inside the program text, decode,
the step is that instruction's. -/
def Obligations.StepRunsDecodedInstruction : Prop :=
  ∀ (s : State) (i : Instr) (rest : List Byte), s.textBase ≤ s.pc → s.pc < s.textLimit →
    decode s.mode (s.text.drop (s.pc - s.textBase)) = .ok (i, rest) → step s = exec i s

/-- R172 (decision D25): at the end of the text the run has ended, inside it a byte string that is no admitted
encoding is refused with the decoder's reason, and outside it nothing can be fetched (the last is the model's,
notes/assumptions/10.md). -/
def Obligations.StepStopsWithoutInstruction : Prop :=
  ∀ s : State,
    (s.pc = s.textLimit → step s = .refused .endOfRun) ∧
    (∀ why, s.textBase ≤ s.pc → s.pc < s.textLimit →
      decode s.mode (s.text.drop (s.pc - s.textBase)) = .error why → step s = .refused (.undecodable why)) ∧
    (s.pc < s.textBase ∨ s.textLimit < s.pc → step s = .refused .outsideText)

/-- The word of an opcode-table row, placed as the program text at the program counter of any state in 64-bit mode,
is the instruction the next step runs (notes/assumptions/5.md). -/
def Obligations.PlacedTableWordRuns : Prop :=
  ∀ (s : State) (nbits w : Nat) (i : Instr), s.mode = .mode64 → decodeTableWord nbits w = some i →
    step (s.withFetchWord nbits w) = exec i (s.withFetchWord nbits w)

/-- The launch state that stands for reset: the model's choice throughout, since no reset value is stated (R24,
R170): notes/assumptions/1.md to 5.md. -/
def Obligations.ResetStateValues : Prop :=
  State.reset.mode = .mode64 ∧ State.reset.pc = 0x400000 ∧ (∀ i, State.reset.gpr i = 0) ∧
  (∀ j, State.reset.xmm j = 0) ∧ State.reset.flags = 0x2 ∧ State.reset.mxcsr = 0x1F80 ∧
  (∀ a, State.reset.byte a = none) ∧ State.reset.ended = true ∧ State.reset.cfg = Config.launch

/-- The launch state meets the invariant. -/
def Obligations.ResetMeetsInv : Prop := State.reset.Inv

/-- Every step keeps the invariant: memory stays in canonical form and in the address space and off the program
text, and the program counter stays in the text or at its end (R35, R40, R172). -/
def Obligations.StepKeepsInv : Prop :=
  ∀ s t : State, s.Inv → step s = .next t → t.Inv

/-- No step changes the mode, the vector registers at any width, the flags, MXCSR, the program text or the
parameters (R15, R18, R19 to R21, R40), from any state; so no run does. -/
def Obligations.NoRunChangesSystemState : Prop :=
  (∀ s t : State, step s = .next t → SameSystem s t) ∧ ∀ s t : State, Reaches s t → SameSystem s t

/-- R40: the bytes of the program text never change, in any run. -/
def Obligations.ProgramTextIsFixed : Prop :=
  ∀ s t : State, Reaches s t → ∀ a, s.textBase ≤ a → a < s.textLimit →
    t.byte a = s.byte a ∧ s.byte a = s.text[a - s.textBase]?
end

