-- ==== Sys2Proof/Laws/Decode.lean ====
section
/-! SUPPORT. What the parts of the decoder and the encoder say of each other: the operand bytes both ways, the
prefix payload bytes both ways, and for each class everything an accepted byte string is. -/

namespace Sys2Proof

/-! ## Fields of the ModRM and SIB bytes -/

@[simp] theorem modrmByte_mod (m : BitVec 2) (reg rm : BitVec 3) : (modrmByte m reg rm).extractLsb' 6 2 = m := by
  revert m reg rm; decide
@[simp] theorem modrmByte_reg (m : BitVec 2) (reg rm : BitVec 3) : (modrmByte m reg rm).extractLsb' 3 3 = reg := by
  revert m reg rm; decide
@[simp] theorem modrmByte_rm (m : BitVec 2) (reg rm : BitVec 3) : (modrmByte m reg rm).extractLsb' 0 3 = rm := by
  revert m reg rm; decide
@[simp] theorem sibByte_scale (s : BitVec 2) (i b : BitVec 3) : (sibByte s i b).extractLsb' 6 2 = s := by
  revert s i b; decide
@[simp] theorem sibByte_index (s : BitVec 2) (i b : BitVec 3) : (sibByte s i b).extractLsb' 3 3 = i := by
  revert s i b; decide
@[simp] theorem sibByte_base (s : BitVec 2) (i b : BitVec 3) : (sibByte s i b).extractLsb' 0 3 = b := by
  revert s i b; decide
theorem modrmByte_fields (b : Byte) :
    modrmByte (b.extractLsb' 6 2) (b.extractLsb' 3 3) (b.extractLsb' 0 3) = b := by
  revert b; decide
theorem sibByte_fields (b : Byte) :
    sibByte (b.extractLsb' 6 2) (b.extractLsb' 3 3) (b.extractLsb' 0 3) = b := by
  revert b; decide

/-! ## Displacements -/

/-- Four displacement bytes are read as they are written. -/
@[simp] theorem takeDisp32_disp32Bytes (d : BitVec 32) (rest : List Byte) :
    takeDisp32 (disp32Bytes d ++ rest) = .ok (d, rest) := by
  have h : d.extractLsb' 24 8 ++ d.extractLsb' 16 8 ++ d.extractLsb' 8 8 ++ d.extractLsb' 0 8 = d := by
    apply BitVec.eq_of_getLsbD_eq
    intro i hi
    simp only [BitVec.getLsbD_append, BitVec.getLsbD_extractLsb']
    split
    · simp_all
    · split
      · rw [show 8 + (i - 8) = i by omega]
        simp_all
      · split
        · rw [show 16 + (i - 8 - 8) = i by omega]
          simp_all
        · rw [show 24 + (i - 8 - 8 - 8) = i by omega]
          simp [show i - 8 - 8 - 8 < 8 by omega]
  simp only [disp32Bytes, takeDisp32, List.cons_append, List.nil_append, h]

/-- Four displacement bytes are written as they are read. -/
theorem disp32Bytes_of_takeDisp32 {bs rest : List Byte} {d : BitVec 32} (h : takeDisp32 bs = .ok (d, rest)) :
    disp32Bytes d ++ rest = bs := by
  unfold takeDisp32 at h
  split at h
  · rename_i b0 b1 b2 b3 r
    simp only [Except.ok.injEq, Prod.mk.injEq] at h
    obtain ⟨rfl, rfl⟩ := h
    simp only [disp32Bytes, List.cons_append, List.nil_append, List.cons.injEq, and_true]
    refine ⟨?_, ?_, ?_, ?_⟩ <;>
    · apply BitVec.eq_of_getLsbD_eq
      intro i hi
      simp only [BitVec.getLsbD_extractLsb', BitVec.getLsbD_append, hi, decide_true, Bool.true_and]
      split_ifs <;> first | (exfalso; omega) | (congr 1; omega)
  · simp at h

@[simp] theorem Disp.mod_ne_reg (d : Disp) : d.mod ≠ 3#2 := by cases d <;> simp [Disp.mod]

theorem Disp.mod_eq_zero (d : Disp) : d.mod = 0#2 ↔ d = .absent := by cases d <;> simp [Disp.mod]

/-- A displacement is read as it is written. -/
@[simp] theorem takeDisp_encode (d : Disp) (rest : List Byte) :
    takeDisp d.mod (d.encode ++ rest) = .ok (d, rest) := by
  cases d <;> simp [takeDisp, Disp.mod, Disp.encode]

/-- A displacement is written as it is read. -/
theorem encode_of_takeDisp {m : BitVec 2} {bs rest : List Byte} {d : Disp} (h : takeDisp m bs = .ok (d, rest))
    (hm : m ≠ 3#2) : d.mod = m ∧ d.encode ++ rest = bs := by
  unfold takeDisp at h
  split at h
  · simp only [Except.ok.injEq, Prod.mk.injEq] at h
    obtain ⟨rfl, rfl⟩ := h
    simp_all [Disp.mod, Disp.encode]
  · rename_i h0
    split at h
    · split at h
      · simp only [Except.ok.injEq, Prod.mk.injEq] at h
        obtain ⟨rfl, rfl⟩ := h
        simp_all [Disp.mod, Disp.encode]
      · simp at h
    · rename_i h1
      split at h
      · rename_i d' r h'
        simp only [Except.ok.injEq, Prod.mk.injEq] at h
        obtain ⟨rfl, rfl⟩ := h
        refine ⟨?_, disp32Bytes_of_takeDisp32 h'⟩
        simp only [Disp.mod]
        clear h'
        revert m
        decide
      · simp at h

/-! ## Operand bytes (R57 to R64) -/

/-- The bytes of a memory form are a ModRM byte and bytes that are read as that form. -/
theorem takeMem_encode (m : Mem) (h : m.wf = true) (reg : BitVec 3) (rest : List Byte) :
    ∃ mod rm tl, m.encode reg ++ rest = modrmByte mod reg rm :: tl ∧ mod ≠ 3#2 ∧
      takeMem mod rm tl = .ok (m, rest) := by
  cases m with
  | base rm d =>
    refine ⟨d.mod, rm, d.encode ++ rest, rfl, d.mod_ne_reg, ?_⟩
    simp [Mem.wf] at h
    simp [takeMem, h, Disp.mod_eq_zero]
    tauto
  | disp32 d => exact ⟨0, 5, disp32Bytes d ++ rest, rfl, by decide, by simp [takeMem]⟩
  | sib s i b d =>
    refine ⟨d.mod, 4, sibByte s i b :: (d.encode ++ rest), rfl, d.mod_ne_reg, ?_⟩
    simp [Mem.wf] at h
    simp [takeMem, takeSib, Disp.mod_eq_zero]
    tauto
  | sibDisp32 s i d =>
    exact ⟨0, 4, sibByte s i 5 :: (disp32Bytes d ++ rest), rfl, by decide, by simp [takeMem, takeSib]⟩

/-- The operand bytes are read as they are written. -/
theorem takeArgs_encode (a : Args) (h : a.wf = true) (rest : List Byte) :
    takeArgs (a.encode ++ rest) = .ok (a, rest) := by
  obtain ⟨reg, rm, imm⟩ := a
  cases rm with
  | reg rm => simp [Args.encode, Rm.encode, takeArgs, takeRm]
  | mem m =>
    obtain ⟨mod, rm, tl, h1, h2, h3⟩ := takeMem_encode m h reg (imm :: rest)
    simp only [Args.encode, Rm.encode, List.append_assoc, List.cons_append, List.nil_append, h1, takeArgs,
      modrmByte_mod, modrmByte_reg, modrmByte_rm, takeRm, h2, h3, if_false]

/-- A memory form is well-formed and written as it is read. -/
theorem encode_of_takeMem {mod : BitVec 2} {rm reg : BitVec 3} {bs rest : List Byte} {m : Mem}
    (h : takeMem mod rm bs = .ok (m, rest)) (hm : mod ≠ 3#2) :
    m.wf = true ∧ m.encode reg ++ rest = modrmByte mod reg rm :: bs := by
  unfold takeMem at h
  split at h
  · rename_i h4
    unfold takeSib at h
    split at h
    · simp at h
    · split at h
      · rename_i h5
        split at h
        · rename_i d r h'
          simp only [Except.ok.injEq, Prod.mk.injEq] at h
          obtain ⟨rfl, rfl⟩ := h
          refine ⟨rfl, ?_⟩
          simp only [Mem.encode, List.cons_append, disp32Bytes_of_takeDisp32 h', h4, h5.1]
          rw [← h5.2, sibByte_fields]
        · simp at h
      · rename_i h5
        split at h
        · rename_i d r h'
          simp only [Except.ok.injEq, Prod.mk.injEq] at h
          obtain ⟨rfl, rfl⟩ := h
          obtain ⟨h6, h7⟩ := encode_of_takeDisp h' hm
          refine ⟨?_, by simp only [Mem.encode, List.cons_append, h7, h6, h4, sibByte_fields]⟩
          simp only [Mem.wf, Bool.not_eq_true', Bool.and_eq_false_iff, beq_eq_false_iff_ne, ne_eq]
          by_contra hc
          simp at hc
          exact h5 ⟨by rw [← h6, hc.2]; rfl, by simpa using hc.1⟩
        · simp at h
  · rename_i h4
    split at h
    · rename_i h5
      split at h
      · rename_i d r h'
        simp only [Except.ok.injEq, Prod.mk.injEq] at h
        obtain ⟨rfl, rfl⟩ := h
        exact ⟨rfl, by simp only [Mem.encode, List.cons_append, disp32Bytes_of_takeDisp32 h', h5.1, h5.2]⟩
      · simp at h
    · rename_i h5
      split at h
      · rename_i d r h'
        simp only [Except.ok.injEq, Prod.mk.injEq] at h
        obtain ⟨rfl, rfl⟩ := h
        obtain ⟨h6, h7⟩ := encode_of_takeDisp h' hm
        refine ⟨?_, by simp only [Mem.encode, List.cons_append, h7, h6]⟩
        simp only [Mem.wf, Bool.and_eq_true, bne_iff_ne, ne_eq, h4, not_false_eq_true, true_and,
          Bool.not_eq_true', Bool.and_eq_false_iff, beq_eq_false_iff_ne]
        by_contra hc
        simp at hc
        exact h5 ⟨by rw [← h6, hc.2]; rfl, hc.1⟩
      · simp at h

/-- The operand bytes are well-formed and written as they are read. -/
theorem encode_of_takeArgs {bs rest : List Byte} {a : Args} (h : takeArgs bs = .ok (a, rest)) :
    a.wf = true ∧ a.encode ++ rest = bs := by
  unfold takeArgs at h
  split at h
  · simp at h
  · rename_i b bs
    split at h
    · simp at h
    · simp at h
    · rename_i rm imm r h'
      simp only [Except.ok.injEq, Prod.mk.injEq] at h
      obtain ⟨rfl, rfl⟩ := h
      unfold takeRm at h'
      split at h'
      · rename_i h3
        simp only [Except.ok.injEq, Prod.mk.injEq] at h'
        obtain ⟨rfl, rfl⟩ := h'
        refine ⟨rfl, ?_⟩
        simp only [Args.encode, Rm.encode, List.cons_append, List.nil_append]
        rw [← h3, modrmByte_fields]
      · rename_i h3
        split at h'
        · rename_i m r h''
          simp only [Except.ok.injEq, Prod.mk.injEq] at h'
          obtain ⟨rfl, rfl⟩ := h'
          obtain ⟨h4, h5⟩ := encode_of_takeMem (reg := b.extractLsb' 3 3) h'' h3
          refine ⟨h4, ?_⟩
          simp only [Args.encode, Rm.encode, List.append_assoc, List.cons_append, List.nil_append, h5,
            modrmByte_fields]
        · simp at h'

/-! ## Payload bytes (R53, R55, R56) -/

/-- A REX byte is read as it is written, and looks like one. -/
theorem rexOf_encode (p : Rex) : rexOf p.encode = p ∧ p.encode.extractLsb' 4 4 = 4#4 := by
  obtain ⟨w, r, x, b⟩ := p
  cases w <;> cases r <;> cases x <;> cases b <;> decide

/-- A REX byte is written as it is read. -/
theorem encode_rexOf (b : Byte) (h : b.extractLsb' 4 4 = 4#4) : (rexOf b).encode = b := by
  revert b; decide

/-- A VEX prefix is read as it is written, with the fixed fields the decoder asks for. -/
theorem vexOf_encode (p : Vex) :
    ∃ b1 b2, p.encode = [0xC4#8, b1, b2] ∧ vexOf b1 b2 = p ∧ b1.extractLsb' 0 5 = 3#5 ∧
      b2.extractLsb' 0 2 = 1#2 ∧ (p.wf .mode32 = true → b1.extractLsb' 5 3 = 7#3) := by
  obtain ⟨r, x, b, w, v, l⟩ := p
  refine ⟨_, _, rfl, ?_⟩
  revert v
  cases r <;> cases x <;> cases b <;> cases w <;> cases l <;> decide

/-- A VEX prefix is written as it is read. -/
theorem encode_vexOf (b1 b2 : Byte) (h1 : b1.extractLsb' 0 5 = 3#5) (h2 : b2.extractLsb' 0 2 = 1#2) :
    (vexOf b1 b2).encode = [0xC4#8, b1, b2] := by
  have e1 : ∀ b : Byte, b.extractLsb' 0 5 = 3#5 →
      BitVec.ofBool (b.getLsbD 7) ++ BitVec.ofBool (b.getLsbD 6) ++ BitVec.ofBool (b.getLsbD 5) ++ 3#5 = b := by
    decide
  have e2 : ∀ b : Byte, b.extractLsb' 0 2 = 1#2 →
      BitVec.ofBool (b.getLsbD 7) ++ b.extractLsb' 3 4 ++ BitVec.ofBool (b.getLsbD 2) ++ 1#2 = b := by decide
  simp only [Vex.encode, vexOf, Bool.not_not]
  rw [e1 _ h1, e2 _ h2]

/-- An EVEX prefix is read as it is written, with the fixed fields the decoder asks for. -/
theorem evexOf_encode (p : Evex) :
    ∃ p0 p1 p2, p.encode = [0x62#8, p0, p1, p2] ∧ evexOf p0 p1 p2 = p ∧ p0.extractLsb' 0 3 = 3#3 ∧
      p1.extractLsb' 0 2 = 1#2 ∧ p0.getLsbD 3 = false ∧ p1.getLsbD 2 = true ∧ p2.getLsbD 7 = false ∧
      p2.extractLsb' 0 5 = 8#5 ∧ ((!p.r && !p.x && !p.b && !p.rHi) = true → p0.extractLsb' 4 4 = 15#4) := by
  obtain ⟨r, x, b, rHi, w, v, l⟩ := p
  refine ⟨_, _, _, rfl, ?_⟩
  revert v l
  cases r <;> cases x <;> cases b <;> cases w <;> cases rHi <;> decide

/-- An EVEX prefix is written as it is read. -/
theorem encode_evexOf (p0 p1 p2 : Byte) (h1 : p0.extractLsb' 0 3 = 3#3) (h2 : p0.getLsbD 3 = false)
    (h3 : p1.extractLsb' 0 2 = 1#2) (h4 : p1.getLsbD 2 = true) (h5 : p2.getLsbD 7 = false)
    (h6 : p2.extractLsb' 0 5 = 8#5) : (evexOf p0 p1 p2).encode = [0x62#8, p0, p1, p2] := by
  have e0 : ∀ b : Byte, b.extractLsb' 0 3 = 3#3 → b.getLsbD 3 = false →
      BitVec.ofBool (b.getLsbD 7) ++ BitVec.ofBool (b.getLsbD 6) ++ BitVec.ofBool (b.getLsbD 5) ++
        BitVec.ofBool (b.getLsbD 4) ++ 3#4 = b := by decide
  have e1 : ∀ b : Byte, b.extractLsb' 0 2 = 1#2 → b.getLsbD 2 = true →
      BitVec.ofBool (b.getLsbD 7) ++ b.extractLsb' 3 4 ++ 5#3 = b := by decide
  have e2 : ∀ b : Byte, b.getLsbD 7 = false → b.extractLsb' 0 5 = 8#5 →
      0#1 ++ b.extractLsb' 5 2 ++ 8#5 = b := by decide
  simp only [Evex.encode, evexOf, Bool.not_not]
  rw [e0 _ h1 h2, e1 _ h3 h4, e2 _ h5 h6]

/-! ## What an accepted byte string is, by class (R52, R55, R56, R65) -/

/-- After the REX byte, if any: the escape bytes, one of the two opcode bytes and the operand bytes. -/
theorem decodeEscape_ok {m : Mode} {rex : Option Rex} {bs rest : List Byte} {i : Instr}
    (h : decodeEscape m rex bs = .ok (i, rest)) :
    ∃ op a tl, (op = 0x14#8 ∨ op = 0x16#8) ∧ bs = 0x0F#8 :: 0x3A#8 :: op :: tl ∧
      takeArgs tl = .ok (a, rest) ∧ i = legacyRow rex op a := by
  unfold decodeEscape at h
  split at h
  · split at h
    · simp at h
    · split at h
      · simp at h
      · split at h
        · simp at h
        · split at h
          · rename_i e1 e2 op bs h1 h2 h3 _ a r h4
            simp only [Except.ok.injEq, Prod.mk.injEq] at h
            obtain ⟨rfl, rfl⟩ := h
            simp only [ne_eq, not_not] at h1 h2
            exact ⟨op, a, bs, by tauto, by rw [h1, h2], h4, rfl⟩
          · simp at h
  · simp at h

/-- After 66: the bytes of an admitted legacy prefix part, an opcode byte and the operand bytes. -/
theorem decodeLegacy_ok {m : Mode} {bs rest : List Byte} {i : Instr} (h : decodeLegacy m bs = .ok (i, rest)) :
    ∃ rex op a tl, (op = 0x14#8 ∨ op = 0x16#8) ∧ 0x66#8 :: bs = (Lead.legacy rex).encode ++ op :: tl ∧
      rexWf m rex = true ∧ takeArgs tl = .ok (a, rest) ∧ i = legacyRow rex op a := by
  unfold decodeLegacy at h
  split at h
  · split at h
    · rename_i b bs hr
      obtain ⟨op, a, tl, h1, rfl, h3, h4⟩ := decodeEscape_ok h
      simp [isRex] at hr
      refine ⟨_, op, a, tl, h1, ?_, by simp [rexWf, hr.1], h3, h4⟩
      simp only [Lead.encode, encode_rexOf b hr.2, List.cons_append, List.nil_append]
    · obtain ⟨op, a, tl, h1, h2, h3, h4⟩ := decodeEscape_ok h
      exact ⟨_, op, a, tl, h1, by rw [h2]; rfl, by simp [rexWf], h3, h4⟩
  · simp at h

/-- After C4: two payload bytes with map 0F3A and implied 66, with ones for extension bits in 32-bit mode. -/
theorem decodeVex_ok {m : Mode} {bs rest : List Byte} {i : Instr} (h : decodeVex m bs = .ok (i, rest)) :
    ∃ b1 b2 op a tl, (op = 0x14#8 ∨ op = 0x16#8) ∧ bs = b1 :: b2 :: op :: tl ∧
      (m = .mode32 → b1.extractLsb' 5 3 = 7#3) ∧ b1.extractLsb' 0 5 = 3#5 ∧ b2.extractLsb' 0 2 = 1#2 ∧
      takeArgs tl = .ok (a, rest) ∧ i = vexRow m (vexOf b1 b2) op a := by
  unfold decodeVex at h
  split at h
  · split at h
    · simp at h
    · split at h
      · simp at h
      · split at h
        · simp at h
        · split at h
          · rename_i b1 b2 op bs h1 h2 h3 _ a r h4
            simp only [Except.ok.injEq, Prod.mk.injEq] at h
            obtain ⟨rfl, rfl⟩ := h
            exact ⟨b1, b2, op, a, bs, by tauto, rfl, by tauto, by tauto, by tauto, h4, rfl⟩
          · simp at h
  · simp at h

/-- After 62: three payload bytes with map 0F3A, implied 66 and the canonical fields of R68. -/
theorem decodeEvex_ok {m : Mode} {bs rest : List Byte} {i : Instr} (h : decodeEvex m bs = .ok (i, rest)) :
    ∃ p0 p1 p2 op a tl, (op = 0x14#8 ∨ op = 0x16#8) ∧ bs = p0 :: p1 :: p2 :: op :: tl ∧
      (m = .mode32 → p0.extractLsb' 4 4 = 15#4) ∧ p0.extractLsb' 0 3 = 3#3 ∧ p1.extractLsb' 0 2 = 1#2 ∧
      p0.getLsbD 3 = false ∧ p1.getLsbD 2 = true ∧ p2.getLsbD 7 = false ∧ p2.extractLsb' 0 5 = 8#5 ∧
      takeArgs tl = .ok (a, rest) ∧ evexArgsReject m (evexOf p0 p1 p2) op a = none ∧
      i = evexRow m (evexOf p0 p1 p2) op a := by
  unfold decodeEvex at h
  split at h
  · split at h
    · simp at h
    · split at h
      · simp at h
      · split at h
        · simp at h
        · split at h
          · simp at h
          · split at h
            · split at h
              · simp at h
              · rename_i p0 p1 p2 op bs h1 h2 h3 h3' _ a r h4 _ h5
                simp only [Except.ok.injEq, Prod.mk.injEq] at h
                obtain ⟨rfl, rfl⟩ := h
                simp only [not_or, Bool.not_eq_true, Bool.not_eq_false, ne_eq, not_not] at h2
                exact ⟨p0, p1, p2, op, a, bs, by tauto, rfl, by tauto, by tauto, by tauto, by tauto, by tauto,
                  by tauto, by tauto, h4, h5, rfl⟩
            · simp at h
  · simp at h

end Sys2Proof
end

