-- ==== Sys2Proof/Laws/Memory.lean ====
section
/-! SUPPORT. The laws of memory: a read after a write, and that every memory operation keeps the canonical form
and the address space. -/

namespace Sys2Proof.Machine

/-- A read after a write of the byte gives the byte, and a write leaves every other address alone. -/
theorem Memory.read_write (m : Memory) (x y : Nat) (v : Byte) :
    (Memory.write m x v).read y = if y = x then some v else Memory.read m y := by
  induction m with
  | nil => simp [Memory.write, Memory.read, eq_comm]
  | cons c m ih =>
    obtain ⟨a, b⟩ := c
    by_cases h1 : x < a
    · simp [Memory.write, Memory.read, h1, eq_comm]
    · by_cases h2 : a = x
      · subst h2
        by_cases h3 : a = y
        · simp [Memory.write, Memory.read, h3]
        · simp [Memory.write, Memory.read, h3, Ne.symm h3]
      · by_cases h3 : a = y
        · subst h3; simp [Memory.write, Memory.read, h1, h2]
        · simp [Memory.write, Memory.read, h1, h2, h3, ih]

/-- A store of `n` bytes gives byte `k` of the value at `addr + k` and leaves every other address alone (R32). -/
theorem Memory.read_writeBytes (m : Memory) (x y : Nat) (v : BitVec 64) (n : Nat) :
    (Memory.writeBytes m x v n).read y =
      if x ≤ y ∧ y < x + n then some (byteAt v (y - x)) else Memory.read m y := by
  induction n with
  | zero => simp only [Memory.writeBytes]; split <;> first | rfl | omega
  | succ n ih =>
    simp only [Memory.writeBytes, Memory.read_write, ih]
    by_cases h : y = x + n
    · subst h; simp
    · by_cases h' : x ≤ y ∧ y < x + n
      · have : x ≤ y ∧ y < x + (n + 1) := by omega
        simp [h, h', this]
      · have : ¬ (x ≤ y ∧ y < x + (n + 1)) := by omega
        simp only [h, h', this, if_false]

/-- The head of a memory after a write is the written address or the old head. -/
theorem Memory.wf_cons_write (a x : Nat) (b v : Byte) (m : Memory) (hax : a < x)
    (h : Memory.wf ((a, b) :: m) = true) (hw : (Memory.write m x v).wf = true) :
    Memory.wf ((a, b) :: Memory.write m x v) = true := by
  cases m with
  | nil => simp [Memory.write, Memory.wf, hax]
  | cons c m =>
    obtain ⟨a', b'⟩ := c
    have haa' : a < a' := by simp [Memory.wf] at h; exact h.1
    by_cases h1 : x < a'
    · simp only [Memory.write, h1, if_true] at hw ⊢
      simpa [Memory.wf, hax] using hw
    · by_cases h2 : a' = x
      · simp only [Memory.write, h2, if_true] at hw ⊢
        simp_all [Memory.wf]
      · simp only [Memory.write, h1, h2, if_false] at hw ⊢; simp [Memory.wf, haa', hw]

/-- Writing a byte keeps the canonical form. -/
theorem Memory.wf_write (m : Memory) (x : Nat) (v : Byte) (h : m.wf = true) : (Memory.write m x v).wf = true := by
  induction m with
  | nil => rfl
  | cons c m ih =>
    obtain ⟨a, b⟩ := c
    have htail : Memory.wf m = true := by
      cases m with
      | nil => rfl
      | cons c' m' => simp [Memory.wf] at h; exact h.2
    by_cases h1 : x < a
    · simp [Memory.write, h1, Memory.wf, h]
    · by_cases h2 : a = x
      · subst h2
        have e : Memory.write ((a, b) :: m) a v = (a, v) :: m := by simp [Memory.write]
        rw [e]
        cases m with
        | nil => rfl
        | cons c' m' => simpa [Memory.wf] using h
      · have e : Memory.write ((a, b) :: m) x v = (a, b) :: Memory.write m x v := by
          simp [Memory.write, h1, h2]
        rw [e]
        exact Memory.wf_cons_write a x b v m (by omega) h (ih htail)

/-- Every store keeps the canonical form. -/
theorem Memory.wf_writeBytes (m : Memory) (x : Nat) (v : BitVec 64) (n : Nat) (h : m.wf = true) :
    (Memory.writeBytes m x v n).wf = true := by
  induction n with
  | zero => exact h
  | succ n ih => exact Memory.wf_write _ _ _ ih

/-- Writing a byte at an address of the space keeps memory in the space. -/
theorem Memory.below_write (m : Memory) (x top : Nat) (v : Byte) (h : m.below top = true) (hx : x < top) :
    (Memory.write m x v).below top = true := by
  induction m with
  | nil => simp [Memory.write, Memory.below, hx]
  | cons c m ih =>
    obtain ⟨a, b⟩ := c
    simp only [Memory.below, List.all_cons, Bool.and_eq_true, decide_eq_true_eq] at h ih
    simp only [Memory.write]
    split
    · simp [Memory.below, hx, h]
    · split
      · simp [Memory.below, hx]; simpa using h.2
      · simp only [Memory.below, List.all_cons, Bool.and_eq_true, decide_eq_true_eq]
        exact ⟨h.1, ih h.2⟩

/-- A store inside the space keeps memory in the space. -/
theorem Memory.below_writeBytes (m : Memory) (x top : Nat) (v : BitVec 64) (n : Nat) (h : m.below top = true)
    (hx : x + n ≤ top) : (Memory.writeBytes m x v n).below top = true := by
  induction n with
  | zero => exact h
  | succ n ih => exact Memory.below_write _ _ _ _ (ih (by omega)) (by omega)

/-- Memory at launch is in canonical form. -/
theorem State.reset_mem_wf : State.reset.mem.wf = true := rfl

end Sys2Proof.Machine
end

