-- ==== Sys2Proof/Laws/State.lean ====
section
/-! SUPPORT. What each update of the state leaves of each field and accessor. -/

namespace Sys2Proof.Machine

/-! ## `withPc` -/

@[simp] theorem State.withPc_zmm (s : State) (n : Nat) : (s.withPc n).zmm = s.zmm := rfl
@[simp] theorem State.withPc_flags (s : State) (n : Nat) : (s.withPc n).flags = s.flags := rfl
@[simp] theorem State.withPc_mxcsr (s : State) (n : Nat) : (s.withPc n).mxcsr = s.mxcsr := rfl
@[simp] theorem State.withPc_mem (s : State) (n : Nat) : (s.withPc n).mem = s.mem := rfl
@[simp] theorem State.withPc_textBase (s : State) (n : Nat) : (s.withPc n).textBase = s.textBase := rfl
@[simp] theorem State.withPc_text (s : State) (n : Nat) : (s.withPc n).text = s.text := rfl
@[simp] theorem State.withPc_cfg (s : State) (n : Nat) : (s.withPc n).cfg = s.cfg := rfl

@[simp] theorem State.withPc_mode (s : State) (n : Nat) : (s.withPc n).mode = s.mode := by
  rcases s with ⟨_ | _⟩ <;> rfl

@[simp] theorem State.withPc_gpr (s : State) (n : Nat) (i : BitVec 4) : (s.withPc n).gpr i = s.gpr i := by
  rcases s with ⟨_ | _⟩ <;> rfl

/-- A program counter that fits is held as it is (R17). -/
theorem State.withPc_pc (s : State) {n : Nat} (h : n < 2 ^ s.mode.bits) : (s.withPc n).pc = n := by
  rcases s with ⟨_ | _⟩ <;>
    simpa [State.withPc, Regs.withPc, State.pc, State.mode, Mode.bits, BitVec.toNat_ofNat] using h

/-! ## `withGpr` -/

@[simp] theorem State.withGpr_zmm (s : State) (i : BitVec 4) (v : BitVec 64) : (s.withGpr i v).zmm = s.zmm := rfl
@[simp] theorem State.withGpr_flags (s : State) (i : BitVec 4) (v : BitVec 64) :
    (s.withGpr i v).flags = s.flags := rfl
@[simp] theorem State.withGpr_mxcsr (s : State) (i : BitVec 4) (v : BitVec 64) :
    (s.withGpr i v).mxcsr = s.mxcsr := rfl
@[simp] theorem State.withGpr_mem (s : State) (i : BitVec 4) (v : BitVec 64) : (s.withGpr i v).mem = s.mem := rfl
@[simp] theorem State.withGpr_textBase (s : State) (i : BitVec 4) (v : BitVec 64) :
    (s.withGpr i v).textBase = s.textBase := rfl
@[simp] theorem State.withGpr_text (s : State) (i : BitVec 4) (v : BitVec 64) :
    (s.withGpr i v).text = s.text := rfl
@[simp] theorem State.withGpr_cfg (s : State) (i : BitVec 4) (v : BitVec 64) : (s.withGpr i v).cfg = s.cfg := rfl

@[simp] theorem State.withGpr_mode (s : State) (i : BitVec 4) (v : BitVec 64) :
    (s.withGpr i v).mode = s.mode := by
  rcases s with ⟨_ | _⟩ <;> rfl

@[simp] theorem State.withGpr_pc (s : State) (i : BitVec 4) (v : BitVec 64) : (s.withGpr i v).pc = s.pc := by
  rcases s with ⟨_ | _⟩ <;> rfl

/-- A write leaves the other general registers alone. -/
theorem State.withGpr_gpr_ne (s : State) {i j : BitVec 4} (v : BitVec 64) (h : j ≠ i) :
    (s.withGpr i v).gpr j = s.gpr j := by
  have hn : i.toNat ≠ j.toNat := fun e => h (BitVec.eq_of_toNat_eq e.symm)
  rcases s with ⟨_ | _⟩ <;>
    simp only [State.withGpr, Regs.withGpr, State.gpr, Vector.getElem?_setIfInBounds_ne hn]

/-- In 64-bit mode the whole 64-bit register is written (R11). -/
theorem State.withGpr_gpr_mode64 (s : State) (i : BitVec 4) (v : BitVec 64) (h : s.mode = .mode64) :
    (s.withGpr i v).gpr i = v := by
  rcases s with ⟨_ | _⟩
  · have hi : i.toNat < 16 := i.isLt
    simp [State.withGpr, Regs.withGpr, State.gpr, hi]
  · simp [State.mode] at h

/-- In 32-bit mode the 32-bit register is written, where it exists (R12). -/
theorem State.withGpr_gpr_mode32 (s : State) (i : BitVec 4) (v : BitVec 64) (h : s.mode = .mode32)
    (hi : i.toNat < 8) : (s.withGpr i v).gpr i = (v.setWidth 32).setWidth 64 := by
  rcases s with ⟨_ | _⟩
  · simp [State.mode] at h
  · simp [State.withGpr, Regs.withGpr, State.gpr, hi]

/-! ## `withMem` -/

@[simp] theorem State.withMem_regs (s : State) (m : Memory) : (s.withMem m).regs = s.regs := rfl
@[simp] theorem State.withMem_zmm (s : State) (m : Memory) : (s.withMem m).zmm = s.zmm := rfl
@[simp] theorem State.withMem_flags (s : State) (m : Memory) : (s.withMem m).flags = s.flags := rfl
@[simp] theorem State.withMem_mxcsr (s : State) (m : Memory) : (s.withMem m).mxcsr = s.mxcsr := rfl
@[simp] theorem State.withMem_mem (s : State) (m : Memory) : (s.withMem m).mem = m := rfl
@[simp] theorem State.withMem_textBase (s : State) (m : Memory) : (s.withMem m).textBase = s.textBase := rfl
@[simp] theorem State.withMem_text (s : State) (m : Memory) : (s.withMem m).text = s.text := rfl
@[simp] theorem State.withMem_cfg (s : State) (m : Memory) : (s.withMem m).cfg = s.cfg := rfl
@[simp] theorem State.withMem_mode (s : State) (m : Memory) : (s.withMem m).mode = s.mode := rfl
@[simp] theorem State.withMem_pc (s : State) (m : Memory) : (s.withMem m).pc = s.pc := rfl
@[simp] theorem State.withMem_gpr (s : State) (m : Memory) (i : BitVec 4) : (s.withMem m).gpr i = s.gpr i := rfl

/-! ## `withText` -/

@[simp] theorem State.withText_regs (s : State) (b : Nat) (t : List Byte) : (s.withText b t).regs = s.regs := rfl
@[simp] theorem State.withText_zmm (s : State) (b : Nat) (t : List Byte) : (s.withText b t).zmm = s.zmm := rfl
@[simp] theorem State.withText_flags (s : State) (b : Nat) (t : List Byte) :
    (s.withText b t).flags = s.flags := rfl
@[simp] theorem State.withText_mxcsr (s : State) (b : Nat) (t : List Byte) :
    (s.withText b t).mxcsr = s.mxcsr := rfl
@[simp] theorem State.withText_mem (s : State) (b : Nat) (t : List Byte) : (s.withText b t).mem = s.mem := rfl
@[simp] theorem State.withText_textBase (s : State) (b : Nat) (t : List Byte) :
    (s.withText b t).textBase = b := rfl
@[simp] theorem State.withText_text (s : State) (b : Nat) (t : List Byte) : (s.withText b t).text = t := rfl
@[simp] theorem State.withText_cfg (s : State) (b : Nat) (t : List Byte) : (s.withText b t).cfg = s.cfg := rfl
@[simp] theorem State.withText_mode (s : State) (b : Nat) (t : List Byte) : (s.withText b t).mode = s.mode := rfl
@[simp] theorem State.withText_pc (s : State) (b : Nat) (t : List Byte) : (s.withText b t).pc = s.pc := rfl
@[simp] theorem State.withText_gpr (s : State) (b : Nat) (t : List Byte) (i : BitVec 4) :
    (s.withText b t).gpr i = s.gpr i := rfl

/-! ## `xmm` and `textLimit` under updates that leave them -/

@[simp] theorem State.withPc_xmm (s : State) (n : Nat) (j : BitVec 5) :
    (s.withPc n).xmm j = s.xmm j := rfl
@[simp] theorem State.withPc_textLimit (s : State) (n : Nat) :
    (s.withPc n).textLimit = s.textLimit := rfl
@[simp] theorem State.withGpr_xmm (s : State) (i : BitVec 4) (v : BitVec 64) (j : BitVec 5) :
    (s.withGpr i v).xmm j = s.xmm j := rfl
@[simp] theorem State.withGpr_textLimit (s : State) (i : BitVec 4) (v : BitVec 64) :
    (s.withGpr i v).textLimit = s.textLimit := rfl
@[simp] theorem State.withMem_xmm (s : State) (m : Memory) (j : BitVec 5) :
    (s.withMem m).xmm j = s.xmm j := rfl
@[simp] theorem State.withMem_textLimit (s : State) (m : Memory) :
    (s.withMem m).textLimit = s.textLimit := rfl
@[simp] theorem State.withText_xmm (s : State) (b : Nat) (t : List Byte) (j : BitVec 5) :
    (s.withText b t).xmm j = s.xmm j := rfl

/-! ## `withFlags` -/

@[simp] theorem State.withFlags_regs (s : State) (f : BitVec 64) (x : BitVec 32) :
    (s.withFlags f x).regs = s.regs := rfl
@[simp] theorem State.withFlags_zmm (s : State) (f : BitVec 64) (x : BitVec 32) :
    (s.withFlags f x).zmm = s.zmm := rfl
@[simp] theorem State.withFlags_flags (s : State) (f : BitVec 64) (x : BitVec 32) :
    (s.withFlags f x).flags = f := rfl
@[simp] theorem State.withFlags_mxcsr (s : State) (f : BitVec 64) (x : BitVec 32) :
    (s.withFlags f x).mxcsr = x := rfl
@[simp] theorem State.withFlags_mem (s : State) (f : BitVec 64) (x : BitVec 32) :
    (s.withFlags f x).mem = s.mem := rfl
@[simp] theorem State.withFlags_textBase (s : State) (f : BitVec 64) (x : BitVec 32) :
    (s.withFlags f x).textBase = s.textBase := rfl
@[simp] theorem State.withFlags_text (s : State) (f : BitVec 64) (x : BitVec 32) :
    (s.withFlags f x).text = s.text := rfl
@[simp] theorem State.withFlags_cfg (s : State) (f : BitVec 64) (x : BitVec 32) :
    (s.withFlags f x).cfg = s.cfg := rfl
@[simp] theorem State.withFlags_mode (s : State) (f : BitVec 64) (x : BitVec 32) :
    (s.withFlags f x).mode = s.mode := rfl
@[simp] theorem State.withFlags_pc (s : State) (f : BitVec 64) (x : BitVec 32) :
    (s.withFlags f x).pc = s.pc := rfl
@[simp] theorem State.withFlags_gpr (s : State) (f : BitVec 64) (x : BitVec 32) (i : BitVec 4) :
    (s.withFlags f x).gpr i = s.gpr i := rfl

/-! ## `withZmm` -/

@[simp] theorem State.withZmm_regs (s : State) (z : Vector ZmmWord 32) :
    (s.withZmm z).regs = s.regs := rfl
@[simp] theorem State.withZmm_zmm (s : State) (z : Vector ZmmWord 32) :
    (s.withZmm z).zmm = z := rfl
@[simp] theorem State.withZmm_flags (s : State) (z : Vector ZmmWord 32) :
    (s.withZmm z).flags = s.flags := rfl
@[simp] theorem State.withZmm_mxcsr (s : State) (z : Vector ZmmWord 32) :
    (s.withZmm z).mxcsr = s.mxcsr := rfl
@[simp] theorem State.withZmm_mem (s : State) (z : Vector ZmmWord 32) :
    (s.withZmm z).mem = s.mem := rfl
@[simp] theorem State.withZmm_textBase (s : State) (z : Vector ZmmWord 32) :
    (s.withZmm z).textBase = s.textBase := rfl
@[simp] theorem State.withZmm_text (s : State) (z : Vector ZmmWord 32) :
    (s.withZmm z).text = s.text := rfl
@[simp] theorem State.withZmm_cfg (s : State) (z : Vector ZmmWord 32) :
    (s.withZmm z).cfg = s.cfg := rfl
@[simp] theorem State.withZmm_mode (s : State) (z : Vector ZmmWord 32) :
    (s.withZmm z).mode = s.mode := rfl
@[simp] theorem State.withZmm_pc (s : State) (z : Vector ZmmWord 32) :
    (s.withZmm z).pc = s.pc := rfl
@[simp] theorem State.withZmm_gpr (s : State) (z : Vector ZmmWord 32) (i : BitVec 4) :
    (s.withZmm z).gpr i = s.gpr i := rfl

/-! ## The flags completion leaves (R18) -/

@[simp] theorem State.flagged_eq (s : State) : s.flagged = s := rfl

end Sys2Proof.Machine
end

