-- ==== Sys2Proof/Laws/Exec.lean ====
section
/-! SUPPORT. What each shared operation can do, said once: completion, the gate of R149, the destination write,
and the one shape all nine meanings have. -/

namespace Sys2Proof.Machine

/-! ## Completion -/

/-- Completion answers a next state exactly where the program counter fits, and then only moves it. -/
theorem State.advance_next {s u : State} {len : Nat} :
    s.advance len = .next u ↔ s.pc + len < 2 ^ s.mode.bits ∧ u = s.withPc (s.pc + len) := by
  unfold State.advance
  split
  · rename_i h
    simp only [State.flagged_eq, Host.Outcome.next.injEq, h, true_and]
    exact eq_comm
  · rename_i h
    simp [h]

/-- Completion never faults. -/
theorem State.advance_ne_fault (s : State) (len : Nat) (f : Fault) : s.advance len ≠ .fault f := by
  unfold State.advance
  split <;> simp

/-! ## The gate (R149, steps 0 to 4) -/

/-- Past the gate the instruction executes. -/
theorem State.gate_pass (s : State) {e f r : Bool} (he : e = true) (hf : f = true) (hr : r = true)
    (ht : s.cfg.ts = false) (k : Result) : s.gate e f r k = k := by
  simp [State.gate, he, hf, hr, ht]

/-- The gate answers #UD, #NM or what follows it. -/
theorem State.gate_cases (s : State) (e f r : Bool) (k : Result) :
    ((e = false ∨ f = false ∨ r = false) ∧ s.gate e f r k = .fault (.ud s.pc)) ∨
    (e = true ∧ f = true ∧ r = true ∧ s.cfg.ts = true ∧ s.gate e f r k = .fault (.nm s.pc)) ∨
    (e = true ∧ f = true ∧ r = true ∧ s.cfg.ts = false ∧ s.gate e f r k = k) := by
  cases e <;> cases f <;> cases r <;> cases h : s.cfg.ts <;> simp [State.gate, State.raise, h]

/-- An admitted encoding goes on. -/
theorem State.guardEncodable_pass (s : State) {i : Instr} (h : WellFormed s.mode i = true) (k : Result) :
    s.guardEncodable i k = k := by
  simp [State.guardEncodable, h]

/-! ## The program text (R40) -/

/-- A store overlaps the program text exactly if one of its bytes is an address of it. -/
theorem State.overlapsText_iff {s : State} {addr n : Nat} (hn : 0 < n) :
    s.overlapsText addr n = true ↔ ∃ a, addr ≤ a ∧ a < addr + n ∧ s.textBase ≤ a ∧ a < s.textLimit := by
  have hl : s.textLimit = s.textBase + s.text.length := rfl
  simp only [State.overlapsText, Bool.and_eq_true, Bool.not_eq_true', decide_eq_true_eq]
  constructor
  · rintro ⟨⟨h1, h2⟩, h3⟩
    have : s.text.length ≠ 0 := fun e => by simp [List.length_eq_zero_iff.mp e] at h1
    exact ⟨max addr s.textBase, by omega, by omega, by omega, by omega⟩
  · rintro ⟨a, h1, h2, h3, h4⟩
    refine ⟨⟨?_, by omega⟩, by omega⟩
    cases h : s.text with
    | nil => rw [hl, h, List.length_nil] at h4; omega
    | cons _ _ => rfl

/-! ## The destination write (R91) -/

/-- The state a register destination leaves, or a memory destination, before the program counter moves. -/
def State.written (s : State) (d : Dest) (n : Nat) (t : BitVec 64) : State :=
  match d with
  | .reg r => s.withGpr r t
  | .mem ea => s.withMem (s.mem.writeBytes ea t n)

@[simp] theorem State.written_mode (s : State) (d : Dest) (n : Nat) (t : BitVec 64) :
    (s.written d n t).mode = s.mode := by
  cases d <;> simp [State.written]

@[simp] theorem State.written_pc (s : State) (d : Dest) (n : Nat) (t : BitVec 64) :
    (s.written d n t).pc = s.pc := by
  cases d <;> simp [State.written]

@[simp] theorem State.written_zmm (s : State) (d : Dest) (n : Nat) (t : BitVec 64) :
    (s.written d n t).zmm = s.zmm := by
  cases d <;> simp [State.written]

@[simp] theorem State.written_cfg (s : State) (d : Dest) (n : Nat) (t : BitVec 64) :
    (s.written d n t).cfg = s.cfg := by
  cases d <;> simp [State.written]

@[simp] theorem State.written_text (s : State) (d : Dest) (n : Nat) (t : BitVec 64) :
    (s.written d n t).text = s.text := by
  cases d <;> simp [State.written]

@[simp] theorem State.written_textBase (s : State) (d : Dest) (n : Nat) (t : BitVec 64) :
    (s.written d n t).textBase = s.textBase := by
  cases d <;> simp [State.written]

/-- A memory destination reads back as byte `k` of the value at `ea + k`, off the program text, and every other
byte is as before. -/
theorem State.written_byte (s : State) (ea n : Nat) (t : BitVec 64) (pc a : Nat)
    (h : s.overlapsText ea n = false) :
    ((s.written (.mem ea) n t).withPc pc).byte a =
      if ea ≤ a ∧ a < ea + n then some (byteAt t (a - ea)) else s.byte a := by
  have hr : ((s.written (.mem ea) n t).withPc pc).mem.read a =
      if ea ≤ a ∧ a < ea + n then some (byteAt t (a - ea)) else s.mem.read a :=
    Memory.read_writeBytes s.mem ea a t n
  have hb : ((s.written (.mem ea) n t).withPc pc).byte a =
      if s.textBase ≤ a ∧ a < s.textLimit then s.text[a - s.textBase]?
      else ((s.written (.mem ea) n t).withPc pc).mem.read a := rfl
  rw [hb, hr]
  unfold State.byte
  by_cases h1 : s.textBase ≤ a ∧ a < s.textLimit
  · have : ¬ (ea ≤ a ∧ a < ea + n) := fun h2 => by
      have := (State.overlapsText_iff (by omega)).mpr ⟨a, h2.1, h2.2, h1.1, h1.2⟩
      rw [h] at this
      exact absurd this (by decide)
    simp [h1, this]
  · simp [h1]

/-- A register destination leaves every byte as before. -/
theorem State.written_reg_byte (s : State) (d : BitVec 4) (n : Nat) (t : BitVec 64) (pc a : Nat) :
    ((s.written (.reg d) n t).withPc pc).byte a = s.byte a := rfl

/-- What stands in the way of a destination write: a memory fault, or the program text. -/
def State.blocked (s : State) (d : Dest) (n : Nat) : Option Fault :=
  match d with
  | .reg _ => none
  | .mem ea =>
    match s.memoryFault ea n with
    | some kind => some (.memory kind s.pc ea n)
    | none => if s.overlapsText ea n = true then some (.storeIntoText s.pc ea n) else none

/-- The destination write is the fault that blocks it, or the write and completion. -/
theorem State.writeDest_eq (s : State) (d : Dest) (n : Nat) (t : BitVec 64) (len : Nat) :
    s.writeDest d n t len =
      match s.blocked d n with
      | some f => .fault f
      | none => (s.written d n t).advance len := by
  cases d with
  | reg r => rfl
  | mem ea =>
    simp only [State.writeDest, State.store, State.blocked, State.written]
    cases s.memoryFault ea n with
    | some kind => rfl
    | none => by_cases h : s.overlapsText ea n = true <;> simp [h]

/-! ## The nine meanings -/

/-- The extraction of an element of `n` bytes, widened with zeros. -/
def extracted (n : Nat) (src : XmmWord) (imm : Byte) : BitVec 64 :=
  if n = 1 then (extractByte src imm).setWidth 64
  else if n = 4 then (extractDword src imm).setWidth 64
  else extractQword src imm

/-- All nine meanings have one shape: the encoding is admitted, the gate is passed, the destination is written. -/
theorem exec_eq (i : Instr) (s : State) :
    exec i s =
      s.guardEncodable i (s.gate (osEnabled s.cfg i.lead) (featurePresent s.cfg i) (lengthOk i.lead && vvvvOk i.lead)
        (s.writeDest (destOf i s) i.bytes (extracted i.bytes (sourceOf i s) i.args.imm) (ilen i))) := by
  cases i <;> rfl

/-- An instruction answers a next state only if it is an admitted encoding, the gate and the destination let it
through and the program counter fits; then that state is the written one with the program counter moved. -/
theorem exec_next {i : Instr} {s u : State} (h : exec i s = .next u) :
    WellFormed s.mode i = true ∧ osEnabled s.cfg i.lead = true ∧ featurePresent s.cfg i = true ∧
    (lengthOk i.lead && vvvvOk i.lead) = true ∧ s.cfg.ts = false ∧ s.blocked (destOf i s) i.bytes = none ∧
    s.pc + ilen i < 2 ^ s.mode.bits ∧
    u = (s.written (destOf i s) i.bytes (extracted i.bytes (sourceOf i s) i.args.imm)).withPc (s.pc + ilen i) := by
  rw [exec_eq] at h
  by_cases hw : WellFormed s.mode i = true
  · rw [State.guardEncodable_pass s hw] at h
    rcases State.gate_cases s (osEnabled s.cfg i.lead) (featurePresent s.cfg i)
        (lengthOk i.lead && vvvvOk i.lead)
        (s.writeDest (destOf i s) i.bytes (extracted i.bytes (sourceOf i s) i.args.imm) (ilen i)) with
      ⟨_, e⟩ | ⟨_, _, _, _, e⟩ | ⟨h1, h2, h3, h4, e⟩
    · rw [e] at h; simp at h
    · rw [e] at h; simp at h
    · rw [e, State.writeDest_eq] at h
      cases hb : s.blocked (destOf i s) i.bytes with
      | some f => simp [hb] at h
      | none =>
        simp only [hb, State.advance_next, State.written_pc, State.written_mode] at h
        exact ⟨hw, h1, h2, h3, h4, rfl, h.1, h.2⟩
  · simp [State.guardEncodable, hw] at h

/-- Conversely, those conditions are enough. -/
theorem exec_completes {i : Instr} {s : State} (hw : WellFormed s.mode i = true)
    (he : osEnabled s.cfg i.lead = true) (hf : featurePresent s.cfg i = true)
    (hr : (lengthOk i.lead && vvvvOk i.lead) = true) (ht : s.cfg.ts = false)
    (hb : s.blocked (destOf i s) i.bytes = none) (hp : s.pc + ilen i < 2 ^ s.mode.bits) :
    exec i s = .next ((s.written (destOf i s) i.bytes
      (extracted i.bytes (sourceOf i s) i.args.imm)).withPc (s.pc + ilen i)) := by
  rw [exec_eq, State.guardEncodable_pass s hw, State.gate_pass s he hf hr ht, State.writeDest_eq]
  simp only [hb, State.advance_next, State.written_pc, State.written_mode]
  exact ⟨hp, trivial⟩

end Sys2Proof.Machine
end

