-- ==== Sys2Proof/Laws/PerInstr.lean ====
section
/-! SUPPORT. The per-instruction family named in LAWS.json. `EncodedLength`: the encoding of every instruction is
`ilen` bytes long, at least 6 and at most 12 (R51). -/

namespace Sys2Proof.Laws.EncodedLength

/-- The statement of the family. -/
def Statement (i : Instr) : Prop := (encode i).length = ilen i ∧ 6 ≤ ilen i ∧ ilen i ≤ maxLength

theorem disp_encode_length (d : Disp) : d.encode.length = d.length := by cases d <;> rfl

theorem disp_length_le (d : Disp) : d.length ≤ 4 := by cases d <;> simp [Disp.length]

theorem rm_encode_length (reg : BitVec 3) (rm : Rm) : (rm.encode reg).length = 1 + rm.extraLength := by
  rcases rm with _ | (_ | _ | _ | _) <;>
    simp [Rm.encode, Mem.encode, Rm.extraLength, disp_encode_length, disp32Bytes] <;> omega

theorem rm_extraLength_le (rm : Rm) : rm.extraLength ≤ 5 := by
  rcases rm with _ | (⟨_, d⟩ | _ | ⟨_, _, _, d⟩ | _) <;> simp [Rm.extraLength]
  · have := disp_length_le d; omega
  · have := disp_length_le d; omega

theorem lead_encode_length (l : Lead) : l.encode.length = l.length := by
  rcases l with (_ | _) | _ | _ <;> rfl

theorem lead_length_bounds (l : Lead) : 3 ≤ l.length ∧ l.length ≤ 4 := by
  rcases l with (_ | _) | _ | _ <;> simp [Lead.length]

/-- Every instruction has the statement, whatever its fields. -/
theorem all (i : Instr) : Statement i := by
  have h1 := lead_length_bounds i.lead
  have h2 := rm_extraLength_le i.args.rm
  refine ⟨?_, ?_, ?_⟩
  · simp [encode, ilen, Args.encode, lead_encode_length, rm_encode_length]; omega
  · unfold ilen; omega
  · unfold ilen maxLength; omega

theorem pextrb (rex : Option Rex) (a : Args) : Statement (.pextrb rex a) := all _
theorem pextrd (rex : Option Rex) (a : Args) : Statement (.pextrd rex a) := all _
theorem pextrq (rex : Rex) (a : Args) : Statement (.pextrq rex a) := all _
theorem vpextrbVex (p : Vex) (a : Args) : Statement (.vpextrbVex p a) := all _
theorem vpextrdVex (p : Vex) (a : Args) : Statement (.vpextrdVex p a) := all _
theorem vpextrqVex (p : Vex) (a : Args) : Statement (.vpextrqVex p a) := all _
theorem vpextrbEvex (p : Evex) (a : Args) : Statement (.vpextrbEvex p a) := all _
theorem vpextrdEvex (p : Evex) (a : Args) : Statement (.vpextrdEvex p a) := all _
theorem vpextrqEvex (p : Evex) (a : Args) : Statement (.vpextrqEvex p a) := all _

end Sys2Proof.Laws.EncodedLength
end

