-- ==== Sys2Proof/Tests/Slice0.lean ====
section
/-! SUPPORT. Tests: ill-formed terms that `WellFormed` refuses, the byte strings of 95_test_vectors.md and of the
worked examples of spec/ decoded, single steps on its vectors, and a witness for the hypotheses of every statement
that has some. Expected values are the spec's (95_test_vectors.md, named beside each test) or worked out by hand
from the rule named. -/

namespace Sys2Proof.Tests

open Sys2Proof.Machine

/-! ## WellFormed: one ill-formed term for each check -/

/-- Operands `eax, xmm1` with immediate 5. -/
def regArgs : Args := ⟨1, .reg 0, 5⟩

/-- Operands `[rax], xmm1` with immediate 1. -/
def memArgs : Args := ⟨1, .mem (.base 0 .absent), 1⟩

/-- Operands `[rax+disp8], xmm1`. -/
def disp8Args : Args := ⟨1, .mem (.base 0 (.d8 2)), 1⟩

def rexW : Rex := ⟨true, false, false, false⟩
def vexW0 : Vex := ⟨false, false, false, false, 15, false⟩
def vexW1 : Vex := ⟨false, false, false, true, 15, false⟩
def evexW0 : Evex := ⟨false, false, false, false, false, 15, 0⟩
def evexW1 : Evex := ⟨false, false, false, false, true, 15, 0⟩

/-- R53: no REX byte in 32-bit mode. -/
theorem test_wf_rex_in_mode32 : WellFormed .mode32 (.pextrb (some rexW) regArgs) = false := by decide
/-- R65, R97: REX.W = 1 is PEXTRQ, not PEXTRD; PEXTRQ needs it, and 64-bit mode. -/
theorem test_wf_legacy_w :
    WellFormed .mode64 (.pextrd (some rexW) regArgs) = false ∧
    WellFormed .mode64 (.pextrq ⟨false, false, false, false⟩ regArgs) = false ∧
    WellFormed .mode32 (.pextrq rexW regArgs) = false := by decide
/-- R71: extension bits in 32-bit mode, VEX. -/
theorem test_wf_vex_extension_in_mode32 :
    WellFormed .mode32 (.vpextrbVex { vexW0 with r := true } regArgs) = false ∧
    WellFormed .mode32 (.vpextrbVex { vexW0 with x := true } regArgs) = false ∧
    WellFormed .mode32 (.vpextrdVex { vexW0 with b := true } regArgs) = false := by decide
/-- R71: extension bits in 32-bit mode, EVEX. -/
theorem test_wf_evex_extension_in_mode32 :
    WellFormed .mode32 (.vpextrbEvex { evexW0 with r := true } memArgs) = false ∧
    WellFormed .mode32 (.vpextrbEvex { evexW0 with x := true } memArgs) = false ∧
    WellFormed .mode32 (.vpextrdEvex { evexW0 with b := true } memArgs) = false ∧
    WellFormed .mode32 (.vpextrdEvex { evexW0 with rHi := true } memArgs) = false := by decide
/-- R65: which W bit is which row, by mode. -/
theorem test_wf_vector_w :
    WellFormed .mode64 (.vpextrdVex vexW1 regArgs) = false ∧
    WellFormed .mode64 (.vpextrqVex vexW0 regArgs) = false ∧
    WellFormed .mode32 (.vpextrqVex vexW1 regArgs) = false ∧
    WellFormed .mode64 (.vpextrdEvex evexW1 regArgs) = false ∧
    WellFormed .mode64 (.vpextrqEvex evexW0 regArgs) = false ∧
    WellFormed .mode32 (.vpextrqEvex evexW1 regArgs) = false := by decide
/-- R68: the stored X bit is 1 with a register destination. -/
theorem test_wf_evex_x_with_register :
    WellFormed .mode64 (.vpextrbEvex { evexW0 with x := true } regArgs) = false := by decide
/-- R69: the displacement whose scale is not settled. -/
theorem test_wf_evex_disp8_unsettled :
    WellFormed .mode32 (.vpextrdEvex evexW1 disp8Args) = false ∧
    WellFormed .mode32 (.vpextrdEvex evexW1 memArgs) = true ∧
    WellFormed .mode32 (.vpextrbEvex evexW1 disp8Args) = true := by decide
/-- R60, R62: r/m 100b, r/m 101b without displacement and base 101b without displacement are other forms. -/
theorem test_wf_memory_forms :
    WellFormed .mode64 (.pextrb none ⟨1, .mem (.base 4 .absent), 0⟩) = false ∧
    WellFormed .mode64 (.pextrb none ⟨1, .mem (.base 4 (.d32 0)), 0⟩) = false ∧
    WellFormed .mode64 (.pextrb none ⟨1, .mem (.base 5 .absent), 0⟩) = false ∧
    WellFormed .mode64 (.pextrb none ⟨1, .mem (.sib 0 4 5 .absent), 0⟩) = false ∧
    WellFormed .mode64 (.pextrb none ⟨1, .mem (.base 5 (.d8 0)), 0⟩) = true := by decide

/-! ## Decoding: words written out from the spec's encodings -/

/-- R95, R96, R97 and their worked examples; VB7, VB8, VB9 (REX bits). -/
theorem test_decode_legacy :
    decode .mode64 [0x66, 0x0F, 0x3A, 0x14, 0xC8, 0x05] = .ok (.pextrb none ⟨1, .reg 0, 5⟩, []) ∧
    decode .mode64 [0x66, 0x0F, 0x3A, 0x16, 0xCB, 0x02] = .ok (.pextrd none ⟨1, .reg 3, 2⟩, []) ∧
    decode .mode64 [0x66, 0x48, 0x0F, 0x3A, 0x16, 0xCA, 0x01] = .ok (.pextrq rexW ⟨1, .reg 2, 1⟩, []) ∧
    decode .mode64 [0x66, 0x48, 0x0F, 0x3A, 0x14, 0xC8, 0x05] = .ok (.pextrb (some rexW) ⟨1, .reg 0, 5⟩, []) ∧
    decode .mode64 [0x66, 0x41, 0x0F, 0x3A, 0x14, 0xC8, 0x05] =
      .ok (.pextrb (some ⟨false, false, false, true⟩) ⟨1, .reg 0, 5⟩, []) ∧
    decode .mode64 [0x66, 0x44, 0x0F, 0x3A, 0x14, 0xC8, 0x05] =
      .ok (.pextrb (some ⟨false, true, false, false⟩) ⟨1, .reg 0, 5⟩, []) ∧
    decode .mode32 [0x66, 0x0F, 0x3A, 0x14, 0xC8, 0x05] = .ok (.pextrb none ⟨1, .reg 0, 5⟩, []) := by
  exact ⟨rfl, rfl, rfl, rfl, rfl, rfl, rfl⟩

/-- R111, R112, R113 and their worked examples; VB13, VD9, VD10 (W and R bits, 32-bit mode). -/
theorem test_decode_vex :
    decode .mode64 [0xC4, 0xE3, 0x79, 0x14, 0xC8, 0x05] = .ok (.vpextrbVex vexW0 ⟨1, .reg 0, 5⟩, []) ∧
    decode .mode64 [0xC4, 0xE3, 0x79, 0x16, 0xC8, 0x01] = .ok (.vpextrdVex vexW0 ⟨1, .reg 0, 1⟩, []) ∧
    decode .mode64 [0xC4, 0xC3, 0xF9, 0x16, 0xCA, 0x01] =
      .ok (.vpextrqVex { vexW1 with b := true } ⟨1, .reg 2, 1⟩, []) ∧
    decode .mode64 [0xC4, 0xE3, 0xF9, 0x14, 0xC8, 0x05] = .ok (.vpextrbVex vexW1 ⟨1, .reg 0, 5⟩, []) ∧
    decode .mode64 [0xC4, 0x63, 0x79, 0x16, 0xC8, 0x03] =
      .ok (.vpextrdVex { vexW0 with r := true } ⟨1, .reg 0, 3⟩, []) ∧
    decode .mode32 [0xC4, 0xE3, 0xF9, 0x16, 0xC8, 0x01] = .ok (.vpextrdVex vexW1 ⟨1, .reg 0, 1⟩, []) := by
  exact ⟨rfl, rfl, rfl, rfl, rfl, rfl⟩

/-- R126, R127, R128 and their worked examples; VB17, VD12, VD35 (extension bits, 32-bit mode). -/
theorem test_decode_evex :
    decode .mode64 [0x62, 0xF3, 0x7D, 0x08, 0x14, 0xC8, 0x05] = .ok (.vpextrbEvex evexW0 ⟨1, .reg 0, 5⟩, []) ∧
    decode .mode64 [0x62, 0xE3, 0x7D, 0x08, 0x16, 0xC9, 0x03] =
      .ok (.vpextrdEvex { evexW0 with rHi := true } ⟨1, .reg 1, 3⟩, []) ∧
    decode .mode64 [0x62, 0xF3, 0xFD, 0x08, 0x16, 0xC8, 0x00] = .ok (.vpextrqEvex evexW1 ⟨1, .reg 0, 0⟩, []) ∧
    decode .mode64 [0x62, 0xD3, 0x7D, 0x08, 0x14, 0xC7, 0x0F] =
      .ok (.vpextrbEvex { evexW0 with b := true } ⟨0, .reg 7, 15⟩, []) ∧
    decode .mode64 [0x62, 0x63, 0x7D, 0x08, 0x16, 0xC0, 0x02] =
      .ok (.vpextrdEvex { evexW0 with r := true, rHi := true } ⟨0, .reg 0, 2⟩, []) ∧
    decode .mode32 [0x62, 0xF3, 0xFD, 0x08, 0x16, 0x08, 0x01] =
      .ok (.vpextrdEvex evexW1 ⟨1, .mem (.base 0 .absent), 1⟩, []) := by
  exact ⟨rfl, rfl, rfl, rfl, rfl, rfl⟩

/-- The memory forms of VB20, VD21, VD22, VD23, VD24, VD25, VD26 and VD31. -/
theorem test_decode_memory :
    decode .mode64 [0x66, 0x0F, 0x3A, 0x14, 0x4F, 0x04, 0x0F] =
      .ok (.pextrb none ⟨1, .mem (.base 7 (.d8 4)), 15⟩, []) ∧
    decode .mode64 [0x66, 0x0F, 0x3A, 0x16, 0x87, 0x00, 0x01, 0x00, 0x00, 0x01] =
      .ok (.pextrd none ⟨0, .mem (.base 7 (.d32 0x100)), 1⟩, []) ∧
    decode .mode64 [0x66, 0x0F, 0x3A, 0x16, 0x05, 0x10, 0x00, 0x00, 0x00, 0x01] =
      .ok (.pextrd none ⟨0, .mem (.disp32 0x10), 1⟩, []) ∧
    decode .mode64 [0x66, 0x0F, 0x3A, 0x16, 0x0C, 0x24, 0x03] =
      .ok (.pextrd none ⟨1, .mem (.sib 0 4 4 .absent), 3⟩, []) ∧
    decode .mode64 [0x66, 0x0F, 0x3A, 0x16, 0x0C, 0x88, 0x00] =
      .ok (.pextrd none ⟨1, .mem (.sib 2 1 0 .absent), 0⟩, []) ∧
    decode .mode64 [0x66, 0x0F, 0x3A, 0x16, 0x0C, 0x25, 0x00, 0x30, 0x00, 0x00, 0x02] =
      .ok (.pextrd none ⟨1, .mem (.sibDisp32 0 4 0x3000), 2⟩, []) ∧
    decode .mode64 [0x66, 0x43, 0x0F, 0x3A, 0x16, 0x0C, 0x20, 0x01] =
      .ok (.pextrd (some ⟨false, false, true, true⟩) ⟨1, .mem (.sib 0 4 0 .absent), 1⟩, []) ∧
    decode .mode64 [0x62, 0xF3, 0x7D, 0x08, 0x16, 0x48, 0xFF, 0x00] =
      .ok (.vpextrdEvex evexW0 ⟨1, .mem (.base 0 (.d8 0xFF)), 0⟩, []) := by
  exact ⟨rfl, rfl, rfl, rfl, rfl, rfl, rfl, rfl⟩

/-- VX1 to VX5: refused in 32-bit mode. -/
theorem test_refused_mode32 :
    decode .mode32 [0x66, 0x48, 0x0F, 0x3A, 0x16, 0xCA, 0x01] = .error .unknownOpcode ∧
    decode .mode32 [0xC4, 0xC3, 0x79, 0x16, 0xC8, 0x01] = .error .mode32Extension ∧
    decode .mode32 [0xC4, 0x63, 0x79, 0x16, 0xC8, 0x01] = .error .mode32Extension ∧
    decode .mode32 [0x62, 0xE3, 0x7D, 0x08, 0x16, 0xC9, 0x03] = .error .mode32Extension ∧
    decode .mode32 [0x62, 0xF3, 0xFD, 0x08, 0x16, 0x48, 0x02, 0x01] = .error .disp8ScaleUnsettled := by
  exact ⟨rfl, rfl, rfl, rfl, rfl⟩

/-- VX6 to VX12: EVEX fields not at their canonical values. -/
theorem test_refused_evex :
    decode .mode64 [0x62, 0xF3, 0x7D, 0x09, 0x14, 0xC8, 0x05] = .error .evexNotCanonical ∧
    decode .mode64 [0x62, 0xF3, 0x7D, 0x88, 0x14, 0xC8, 0x05] = .error .evexNotCanonical ∧
    decode .mode64 [0x62, 0xF3, 0x7D, 0x18, 0x14, 0xC8, 0x05] = .error .evexNotCanonical ∧
    decode .mode64 [0x62, 0xF3, 0x7D, 0x00, 0x14, 0xC8, 0x05] = .error .evexNotCanonical ∧
    decode .mode64 [0x62, 0xB3, 0x7D, 0x08, 0x14, 0xC8, 0x05] = .error .evexNotCanonical ∧
    decode .mode64 [0x62, 0xFB, 0x7D, 0x08, 0x14, 0xC8, 0x05] = .error .evexNotCanonical ∧
    decode .mode64 [0x62, 0xF3, 0x79, 0x08, 0x14, 0xC8, 0x05] = .error .evexNotCanonical := by
  exact ⟨rfl, rfl, rfl, rfl, rfl, rfl, rfl⟩

/-- VX13 to VX22: other opcodes, maps, implied prefixes and prefix bytes, and a text that ends too soon. -/
theorem test_refused_other :
    decode .mode64 [0x66, 0x0F, 0x3A, 0x15, 0xC8, 0x05] = .error .unknownOpcode ∧
    decode .mode64 [0xC4, 0xE3, 0x79, 0x17, 0xC8, 0x05] = .error .unknownOpcode ∧
    decode .mode64 [0xC4, 0xE2, 0x79, 0x14, 0xC8, 0x05] = .error .unknownOpcode ∧
    decode .mode64 [0xC4, 0xE3, 0x78, 0x14, 0xC8, 0x05] = .error .unknownOpcode ∧
    decode .mode64 [0xC5, 0xF9, 0x14, 0xC8, 0x05] = .error .unknownOpcode ∧
    decode .mode64 [0xF0, 0x66, 0x0F, 0x3A, 0x14, 0x0F, 0x00] = .error .prefixNotAdmitted ∧
    decode .mode64 [0x66, 0x66, 0x0F, 0x3A, 0x14, 0xC8, 0x00] = .error .prefixNotAdmitted ∧
    decode .mode64 [0x67, 0x66, 0x0F, 0x3A, 0x14, 0x0F, 0x00] = .error .prefixNotAdmitted ∧
    decode .mode64 [0x66, 0x48, 0x41, 0x0F, 0x3A, 0x14, 0xC8, 0x00] = .error .prefixNotAdmitted ∧
    decode .mode64 [0x66, 0xC4, 0xE3, 0x79, 0x14, 0xC8, 0x05] = .error .prefixNotAdmitted ∧
    decode .mode64 [0x66, 0x0F, 0x3A, 0x14, 0xC8] = .error .textEnds := by
  exact ⟨rfl, rfl, rfl, rfl, rfl, rfl, rfl, rfl, rfl, rfl, rfl⟩

/-- The words of spec/opcode_table.json, first byte lowest, zeros after them: a ModRM byte 00 is `[rax], xmm0`
(row 3's mask leaves REX.R, REX.X and REX.B open; rows 4 to 9 leave vvvv open, 0 in `match`). -/
theorem test_table_words :
    decodeTableWord 32 0x143A0F66 = some (.pextrb none ⟨0, .mem (.base 0 .absent), 0⟩) ∧
    decodeTableWord 32 0x163A0F66 = some (.pextrd none ⟨0, .mem (.base 0 .absent), 0⟩) ∧
    decodeTableWord 40 0x163A0F4866 = some (.pextrq rexW ⟨0, .mem (.base 0 .absent), 0⟩) ∧
    decodeTableWord 32 0x140103C4 =
      some (.vpextrbVex ⟨true, true, true, false, 0, false⟩ ⟨0, .mem (.base 0 .absent), 0⟩) ∧
    decodeTableWord 32 0x168103C4 =
      some (.vpextrqVex ⟨true, true, true, true, 0, false⟩ ⟨0, .mem (.base 0 .absent), 0⟩) ∧
    decodeTableWord 40 0x1608050362 =
      some (.vpextrdEvex ⟨true, true, true, true, false, 0, 0⟩ ⟨0, .mem (.base 0 .absent), 0⟩) := by
  exact ⟨rfl, rfl, rfl, rfl, rfl, rfl⟩

/-! ## Single steps on the vectors of 95_test_vectors.md section 2 -/

/-- The source value `S` of 95_test_vectors.md: byte `k` is `0x11 * k`. -/
def srcS : XmmWord := 0xFFEEDDCCBBAA99887766554433221100#128

/-- Section 2's start in 64-bit mode: every vector register holds `S`, every general register `0xAA...AA`, the
program counter and the text are at `0x400000`. -/
def start64 (text : List Byte) : State :=
  { State.reset with
    regs := .mode64 (.replicate 16 0xAAAAAAAAAAAAAAAA) 0x400000
    zmm := .replicate 32 (srcS.setWidth 512)
    text := text }

/-- The same in 32-bit mode. -/
def start32 (text : List Byte) : State :=
  { start64 text with regs := .mode32 (.replicate 8 0xAAAAAAAA) 0x400000 }

/-- A general register and the program counter after one step. -/
def regAfter (s : State) (d : BitVec 4) : Option (BitVec 64 × Nat) :=
  match step s with
  | .next t => some (t.gpr d, t.pc)
  | .fault _ => none
  | .refused _ => none

/-- `n` bytes of memory, with the bytes before and after them, and the program counter after one step. -/
def memAfter (s : State) (ea n : Nat) : Option (Option (List Byte) × Option Byte × Option Byte × Nat) :=
  match step s with
  | .next t => some (t.readBytes ea n, t.byte (ea - 1), t.byte (ea + n), t.pc)
  | .fault _ => none
  | .refused _ => none

/-- VB10: r/m 100b without REX is rsp, register 4. -/
theorem test_pextrb_reg :
    regAfter (start64 [0x66, 0x0F, 0x3A, 0x14, 0xCC, 0x05]) 4 = some (0x55, 0x400006) := by rfl
/-- VB21: a negative displacement. -/
theorem test_pextrb_mem :
    memAfter ((start64 [0x66, 0x0F, 0x3A, 0x14, 0x4F, 0xFC, 0x0F]).withGpr 7 0x1000) 0xFFC 1 =
      some (some [0xFF], none, none, 0x400007) := by rfl
/-- VD3: zero fill above a dword with its top bit set. -/
theorem test_pextrd_reg :
    regAfter (start64 [0x66, 0x0F, 0x3A, 0x16, 0xCB, 0x02]) 3 = some (0xBBAA9988, 0x400006) := by rfl
/-- VD22: an address relative to the next instruction. -/
theorem test_pextrd_mem :
    memAfter (start64 [0x66, 0x0F, 0x3A, 0x16, 0x05, 0x10, 0x00, 0x00, 0x00, 0x01]) 0x40001A 4 =
      some (some [0x44, 0x55, 0x66, 0x77], none, none, 0x40000A) := by rfl
/-- VQ4: only bit 0 of the immediate selects. -/
theorem test_pextrq_reg :
    regAfter (start64 [0x66, 0x48, 0x0F, 0x3A, 0x16, 0xCA, 0xFF]) 2 =
      some (0xFFEEDDCCBBAA9988, 0x400007) := by rfl
/-- VQ20: eight bytes, least significant first, from XMM9. -/
theorem test_pextrq_mem :
    memAfter ((start64 [0x66, 0x4C, 0x0F, 0x3A, 0x16, 0x4F, 0x08, 0x00]).withGpr 7 0x1000) 0x1008 8 =
      some (some [0x00, 0x11, 0x22, 0x33, 0x44, 0x55, 0x66, 0x77], none, none, 0x400008) := by rfl
/-- VB14: VEX.W is ignored in 32-bit mode, and the register is written at 32 bits. -/
theorem test_vpextrb_vex_reg :
    regAfter (start32 [0xC4, 0xE3, 0xF9, 0x14, 0xC8, 0x05]) 0 = some (0x55, 0x400006) := by rfl
/-- R111, R69: one byte at [rdi-1], the displacement not scaled (worked out from VD29's form). -/
theorem test_vpextrb_vex_mem :
    memAfter ((start64 [0xC4, 0xE3, 0x79, 0x14, 0x4F, 0xFF, 0x0E]).withGpr 7 0x1000) 0xFFF 1 =
      some (some [0xEE], none, none, 0x400007) := by rfl
/-- VD10: the W1 byte string in 32-bit mode is VPEXTRD. -/
theorem test_vpextrd_vex_reg :
    regAfter (start32 [0xC4, 0xE3, 0xF9, 0x16, 0xC8, 0x01]) 0 = some (0x77665544, 0x400006) := by rfl
/-- VD29: an 8-bit displacement of a VEX form is not scaled. -/
theorem test_vpextrd_vex_mem :
    memAfter ((start64 [0xC4, 0xE3, 0x79, 0x16, 0x4F, 0x08, 0x01]).withGpr 7 0x1000) 0x1008 4 =
      some (some [0x44, 0x55, 0x66, 0x77], none, none, 0x400007) := by rfl
/-- VQ6: the stored B bit 0 names r10. -/
theorem test_vpextrq_vex_reg :
    regAfter (start64 [0xC4, 0xC3, 0xF9, 0x16, 0xCA, 0x01]) 10 =
      some (0xFFEEDDCCBBAA9988, 0x400006) := by rfl
/-- VQ21. -/
theorem test_vpextrq_vex_mem :
    memAfter ((start64 [0xC4, 0xE3, 0xF9, 0x16, 0x4F, 0x08, 0x01]).withGpr 7 0x1000) 0x1008 8 =
      some (some [0x88, 0x99, 0xAA, 0xBB, 0xCC, 0xDD, 0xEE, 0xFF], none, none, 0x400007) := by rfl
/-- VB17: the last byte, to r15. -/
theorem test_vpextrb_evex_reg :
    regAfter (start64 [0x62, 0xD3, 0x7D, 0x08, 0x14, 0xC7, 0x0F]) 15 = some (0xFF, 0x400007) := by rfl
/-- VB22: the scale of a byte is 1. -/
theorem test_vpextrb_evex_mem :
    memAfter ((start64 [0x62, 0xF3, 0x7D, 0x08, 0x14, 0x48, 0x02, 0x03]).withGpr 0 0x2000) 0x2002 1 =
      some (some [0x33], none, none, 0x400008) := by rfl
/-- VD12: the source is XMM24 (it alone is not `S` here). -/
theorem test_vpextrd_evex_reg :
    regAfter ((start64 [0x62, 0x63, 0x7D, 0x08, 0x16, 0xC0, 0x02]).withZmm
        ((Vector.replicate 32 0#512).setIfInBounds 24 (srcS.setWidth 512))) 0 =
      some (0xBBAA9988, 0x400007) := by rfl
/-- VD31: displacement -1 scaled by 4. -/
theorem test_vpextrd_evex_mem :
    memAfter ((start64 [0x62, 0xF3, 0x7D, 0x08, 0x16, 0x48, 0xFF, 0x00]).withGpr 0 0x2000) 0x1FFC 4 =
      some (some [0x00, 0x11, 0x22, 0x33], none, none, 0x400008) := by rfl
/-- VQ8. -/
theorem test_vpextrq_evex_reg :
    regAfter (start64 [0x62, 0xF3, 0xFD, 0x08, 0x16, 0xC8, 0x01]) 0 =
      some (0xFFEEDDCCBBAA9988, 0x400007) := by rfl
/-- VQ22: displacement 2 scaled by 8. -/
theorem test_vpextrq_evex_mem :
    memAfter ((start64 [0x62, 0xF3, 0xFD, 0x08, 0x16, 0x48, 0x02, 0x01]).withGpr 0 0x2000) 0x2010 8 =
      some (some [0x88, 0x99, 0xAA, 0xBB, 0xCC, 0xDD, 0xEE, 0xFF], none, none, 0x400008) := by rfl

/-- R148: vectors, error codes and the page-fault address. -/
theorem test_fault_records :
    (Fault.ud 0).vector = some 6 ∧ (Fault.nm 0).vector = some 7 ∧ (Fault.ud 0).errorCode = none ∧
    (Fault.memory .ss 0 0x1000 4).vector = some 12 ∧ (Fault.memory .gp 0 0x1000 4).errorCode = some 0 ∧
    (Fault.memory (.pf 7) 0 0x1000 4).vector = some 14 ∧ (Fault.memory (.pf 7) 0 0x1000 4).errorCode = some 7 ∧
    (Fault.memory (.pf 7) 0 0x1000 4).pageFaultAddress = some 0x1000 ∧
    (Fault.memory .ac 0 0x1000 4).vector = some 17 := by decide

/-! ## Witnesses: states and operands that meet the hypotheses of each statement -/

/-- Section 2's start with `rax` = `0x2000` and no text in the way. -/
def at64 : State := (start64 []).withGpr 0 0x2000

/-- The same in 32-bit mode. -/
def at32 : State := (start32 []).withGpr 0 0x2000

/-- `at64` with other parameters. -/
def under (f : Config → Config) : State := { at64 with cfg := f at64.cfg }

/-- ByteExtractSelectsLane: immediates that agree in bits 3:0 only (VB3, VB6). -/
theorem witness_ByteExtractSelectsLane :
    (0xFF : Byte).extractLsb' 0 4 = (0x0F : Byte).extractLsb' 0 4 ∧ extractByte srcS 0x0F = 0xFF ∧
    extractByte srcS 0xFF = 0xFF ∧ extractByte srcS 0x10 = 0x00 := by decide
/-- DwordExtractSelectsLane (VD4, VD6). -/
theorem witness_DwordExtractSelectsLane :
    (0xFF : Byte).extractLsb' 0 2 = (0x03 : Byte).extractLsb' 0 2 ∧ extractDword srcS 0x03 = 0xFFEEDDCC ∧
    extractDword srcS 0xFF = 0xFFEEDDCC ∧ extractDword srcS 0x04 = 0x33221100 := by decide
/-- QwordExtractSelectsLane (VQ3, VQ4), the select 1 clause too. -/
theorem witness_QwordExtractSelectsLane :
    (0xFF : Byte).extractLsb' 0 1 = (0x01 : Byte).extractLsb' 0 1 ∧ (0xFF : Byte).extractLsb' 0 1 = 1#1 ∧
    extractQword srcS 0xFF = 0xFFEEDDCCBBAA9988 ∧ extractQword srcS 0x02 = 0x7766554433221100 := by decide

/-- ByteToRegister, all three constructors. -/
theorem witness_ByteToRegister :
    ∀ i ∈ [Instr.pextrb none regArgs, .vpextrbVex vexW0 regArgs, .vpextrbEvex evexW0 regArgs],
      i.bytes = 1 ∧ Ready i at64 ∧ destOf i at64 = .reg 0 := by
  intro i hi
  fin_cases hi <;> exact ⟨rfl, ⟨⟨rfl, rfl, rfl, rfl, rfl⟩, rfl, trivial, by decide⟩, rfl⟩
/-- DwordToRegister, all three constructors, and the W1 byte strings in 32-bit mode. -/
theorem witness_DwordToRegister :
    (∀ i ∈ [Instr.pextrd none regArgs, .vpextrdVex vexW0 regArgs, .vpextrdEvex evexW0 regArgs],
      i.bytes = 4 ∧ Ready i at64 ∧ destOf i at64 = .reg 0) ∧
    ∀ i ∈ [Instr.pextrd none regArgs, .vpextrdVex vexW1 regArgs, .vpextrdEvex evexW1 regArgs],
      i.bytes = 4 ∧ Ready i at32 ∧ destOf i at32 = .reg 0 := by
  refine ⟨?_, ?_⟩ <;> intro i hi <;> fin_cases hi <;>
    exact ⟨rfl, ⟨⟨rfl, rfl, rfl, rfl, rfl⟩, rfl, trivial, by decide⟩, rfl⟩
/-- QwordToRegister, all three constructors. -/
theorem witness_QwordToRegister :
    ∀ i ∈ [Instr.pextrq rexW regArgs, .vpextrqVex vexW1 regArgs, .vpextrqEvex evexW1 regArgs],
      i.bytes = 8 ∧ Ready i at64 ∧ destOf i at64 = .reg 0 := by
  intro i hi
  fin_cases hi <;> exact ⟨rfl, ⟨⟨rfl, rfl, rfl, rfl, rfl⟩, rfl, trivial, by decide⟩, rfl⟩
/-- ByteToMemory, all three constructors. -/
theorem witness_ByteToMemory :
    ∀ i ∈ [Instr.pextrb none memArgs, .vpextrbVex vexW0 memArgs, .vpextrbEvex evexW0 memArgs],
      i.bytes = 1 ∧ Ready i at64 ∧ destOf i at64 = .mem 0x2000 := by
  intro i hi
  fin_cases hi <;> exact ⟨rfl, ⟨⟨rfl, rfl, rfl, rfl, rfl⟩, rfl, ⟨rfl, rfl⟩, by decide⟩, rfl⟩
/-- DwordToMemory, all three constructors, and 32-bit mode. -/
theorem witness_DwordToMemory :
    (∀ i ∈ [Instr.pextrd none memArgs, .vpextrdVex vexW0 memArgs, .vpextrdEvex evexW0 memArgs],
      i.bytes = 4 ∧ Ready i at64 ∧ destOf i at64 = .mem 0x2000) ∧
    ∀ i ∈ [Instr.pextrd none memArgs, .vpextrdVex vexW1 memArgs, .vpextrdEvex evexW1 memArgs],
      i.bytes = 4 ∧ Ready i at32 ∧ destOf i at32 = .mem 0x2000 := by
  refine ⟨?_, ?_⟩ <;> intro i hi <;> fin_cases hi <;>
    exact ⟨rfl, ⟨⟨rfl, rfl, rfl, rfl, rfl⟩, rfl, ⟨rfl, rfl⟩, by decide⟩, rfl⟩
/-- QwordToMemory, all three constructors. -/
theorem witness_QwordToMemory :
    ∀ i ∈ [Instr.pextrq rexW memArgs, .vpextrqVex vexW1 memArgs, .vpextrqEvex evexW1 memArgs],
      i.bytes = 8 ∧ Ready i at64 ∧ destOf i at64 = .mem 0x2000 := by
  intro i hi
  fin_cases hi <;> exact ⟨rfl, ⟨⟨rfl, rfl, rfl, rfl, rfl⟩, rfl, ⟨rfl, rfl⟩, by decide⟩, rfl⟩
/-- A store that ends at the top of the address space, R35's boundary, meets DwordToMemory's hypotheses. -/
theorem witness_DwordToMemory_top :
    Ready (.pextrd none memArgs) (at64.withGpr 0 0xFFFFFFFFFFFFFFFC) ∧
    destOf (.pextrd none memArgs) (at64.withGpr 0 0xFFFFFFFFFFFFFFFC) = .mem 0xFFFFFFFFFFFFFFFC :=
  ⟨⟨⟨rfl, rfl, rfl, rfl, rfl⟩, rfl, ⟨rfl, rfl⟩, by decide⟩, rfl⟩

/-- RegisterWriteIsFullWidth64, CompletionAdvancesPc, RegisterFormFrame, FlagsNeitherReadNorWritten and
RegisterFormReadsNoGpr: a register form that answers a next state in 64-bit mode. -/
theorem witness_register_form_completes :
    at64.mode = .mode64 ∧ destOf (.pextrb none regArgs) at64 = .reg 0 ∧
    ∃ t, exec (.pextrb none regArgs) at64 = .next t ∧ t.gpr 0 = 0x55 ∧ t.pc = 0x400006 :=
  ⟨rfl, rfl, _, rfl, rfl, rfl⟩
/-- CompletionAdvancesPc, its second clause: an admitted encoding that does not fault. -/
theorem witness_CompletionAdvancesPc :
    WellFormed at32.mode (.pextrb none memArgs) = true ∧
    at32.pc + ilen (.pextrb none memArgs) < 2 ^ at32.mode.bits ∧
    ∀ f, exec (.pextrb none memArgs) at32 ≠ .fault f := by
  refine ⟨rfl, by decide, fun f h => ?_⟩
  have e : ∃ t, exec (.pextrb none memArgs) at32 = .next t := ⟨_, rfl⟩
  obtain ⟨t, e⟩ := e
  rw [e] at h
  cases h
/-- DestinationWrite: each width at its largest value, the last register of each mode, and an address. -/
theorem witness_DestinationWrite :
    (0xFF#64).toNat < 2 ^ (8 * 1) ∧ (0xFFFFFFFF#64).toNat < 2 ^ (8 * 4) ∧
    (0xFFFFFFFFFFFFFFFF#64).toNat < 2 ^ (8 * 8) ∧ at64.pc + 12 < 2 ^ at64.mode.bits ∧
    at64.mode = .mode64 ∧ (7#4).toNat < 8 ∧ at32.pc + 12 < 2 ^ at32.mode.bits ∧
    (∃ u, at32.writeDest (.reg 7) 4 0xFFFFFFFF 12 = .next u ∧ u.gpr 7 = 0xFFFFFFFF) ∧
    at64.memoryFault 0x2000 8 = none ∧ at64.overlapsText 0x2000 8 = false := by
  refine ⟨by decide, by decide, by decide, by decide, rfl, by decide, by decide, ⟨_, rfl, rfl⟩, rfl, rfl⟩
/-- MemoryFormFrame: a memory form that answers a next state. -/
theorem witness_MemoryFormFrame :
    memArgs.rm = .mem (.base 0 .absent) ∧
    effAddr at64 (.evex evexW1) (ilen (.vpextrqEvex evexW1 memArgs)) 8 (.base 0 .absent) = 0x2000 ∧
    ∃ t, exec (.vpextrqEvex evexW1 memArgs) at64 = .next t ∧ t.byte 0x2007 = some 0xFF ∧ t.byte 0x2008 = none :=
  ⟨rfl, rfl, _, rfl, rfl, rfl⟩
/-- DataMemoryIsNotRead: each of the three outcomes. -/
theorem witness_DataMemoryIsNotRead :
    exec (.pextrb none memArgs) (under fun c => { c with ts := true }) = .fault (.nm 0x400000) ∧
    exec (.pextrb (some rexW) memArgs) at32 = .refused .notEncodable ∧
    (∃ t, exec (.pextrb none memArgs) at64 = .next t) ∧ destOf (.pextrb none memArgs) at64 = .mem 0x2000 ∧
    (∃ t, exec (.pextrb none regArgs) at64 = .next t) ∧ destOf (.pextrb none regArgs) at64 = .reg 0 :=
  ⟨rfl, rfl, ⟨_, rfl⟩, rfl, ⟨_, rfl⟩, rfl⟩
/-- ImmediateHighBitsIgnored: two instructions that differ in bits 7:4 of the immediate. -/
theorem witness_ImmediateHighBitsIgnored :
    (Instr.pextrb none ⟨1, .reg 0, 0xF5⟩).lead = (Instr.pextrb none regArgs).lead ∧
    (0xF5 : Byte).toNat % (16 / 1) = (0x05 : Byte).toNat % (16 / 1) ∧ (0xF5 : Byte) ≠ 0x05 :=
  ⟨rfl, by decide, by decide⟩
/-- ClassesAgreeOnResult: a legacy and an EVEX form of one operation, of different lengths. -/
theorem witness_ClassesAgreeOnResult :
    destOf (.pextrb none regArgs) at64 = destOf (.vpextrbEvex evexW0 regArgs) at64 ∧
    sourceOf (.pextrb none regArgs) at64 = sourceOf (.vpextrbEvex evexW0 regArgs) at64 ∧
    (∃ t, exec (.vpextrbEvex evexW0 regArgs) at64 = .next t ∧ t.pc = 0x400007) ∧
    ∃ u, exec (.pextrb none regArgs) at64 = .next u ∧ u.pc = 0x400006 :=
  ⟨rfl, rfl, ⟨_, rfl, rfl⟩, _, rfl, rfl⟩

/-- VectorLengthRaisesUd: VF1, VF3, VF4, the last value of L'L, and 32-bit mode. -/
theorem witness_VectorLengthRaisesUd :
    WellFormed .mode64 (.vpextrbVex { vexW0 with l := true } regArgs) = true ∧
    exec (.vpextrbVex { vexW0 with l := true } regArgs) at64 = .fault (.ud 0x400000) ∧
    (∀ ll ∈ [1#2, 2#2, 3#2], 0 < ll.toNat ∧
      WellFormed .mode32 (.vpextrdEvex { evexW1 with ll := ll } memArgs) = true ∧
      WellFormed .mode64 (.vpextrbEvex { evexW0 with ll := ll } regArgs) = true) ∧
    exec (.vpextrbEvex { evexW0 with ll := 1 } regArgs) at64 = .fault (.ud 0x400000) :=
  ⟨rfl, rfl, by decide, rfl⟩
/-- UnusedRegisterFieldRaisesUd: VF2, VF5 and the value 0000b. -/
theorem witness_UnusedRegisterFieldRaisesUd :
    (∀ v ∈ [0b1110#4, 0#4], v ≠ 0b1111#4 ∧
      WellFormed .mode64 (.vpextrbVex { vexW0 with vvvv := v } regArgs) = true ∧
      WellFormed .mode64 (.vpextrbEvex { evexW0 with vvvv := v } regArgs) = true) ∧
    exec (.vpextrbVex { vexW0 with vvvv := 14 } regArgs) at64 = .fault (.ud 0x400000) ∧
    exec (.vpextrbEvex { evexW0 with vvvv := 14 } regArgs) at64 = .fault (.ud 0x400000) :=
  ⟨by decide, rfl, rfl⟩
/-- VexReservedFieldsRecognisedAndTrap: the bytes of VF1 and VF2. -/
theorem witness_VexReservedFieldsRecognisedAndTrap :
    (0x7D#8).getLsbD 2 = true ∧ (0x71#8).extractLsb' 3 4 ≠ 0b1111#4 ∧
    ((0x7D#8 &&& 0x83#8) ||| 0x78#8) = 0x79#8 ∧ ((0x71#8 &&& 0x83#8) ||| 0x78#8) = 0x79#8 ∧
    (∃ o, decode at64.mode [0xC4, 0xE3, 0x79, 0x14, 0xC8, 0x05] = .ok o) ∧
    (∃ o, decode at64.mode [0xC4, 0xE3, 0x7D, 0x14, 0xC8, 0x05] = .ok o) ∧
    ∃ o, decode at64.mode [0xC4, 0xE3, 0x71, 0x14, 0xC8, 0x05] = .ok o :=
  ⟨by decide, by decide, by decide, by decide, ⟨_, rfl⟩, ⟨_, rfl⟩, _, rfl⟩
/-- EvexReservedFieldsRecognisedAndTrap: the bytes of VF3 and VF5. -/
theorem witness_EvexReservedFieldsRecognisedAndTrap :
    (0x28#8).extractLsb' 5 2 ≠ 0#2 ∧ (0x75#8).extractLsb' 3 4 ≠ 0b1111#4 ∧
    (0x28#8 &&& 0x9F#8) = 0x08#8 ∧ (0x75#8 ||| 0x78#8) = 0x7D#8 ∧
    (∃ o, decode at64.mode [0x62, 0xF3, 0x7D, 0x08, 0x14, 0xC8, 0x05] = .ok o) ∧
    (∃ o, decode at64.mode [0x62, 0xF3, 0x7D, 0x28, 0x14, 0xC8, 0x05] = .ok o) ∧
    ∃ o, decode at64.mode [0x62, 0xF3, 0x75, 0x08, 0x14, 0xC8, 0x05] = .ok o :=
  ⟨by decide, by decide, by decide, by decide, ⟨_, rfl⟩, ⟨_, rfl⟩, _, rfl⟩
/-- MissingEnableOrFeatureRaisesUd: VF6 to VF10, each class by its flag or its enable. -/
theorem witness_MissingEnableOrFeatureRaisesUd :
    (∀ i ∈ [Instr.pextrb none regArgs, .vpextrbVex vexW0 regArgs, .vpextrbEvex evexW0 regArgs,
      .vpextrdEvex evexW0 regArgs, .vpextrdVex vexW0 regArgs], WellFormed at64.mode i = true) ∧
    featurePresent (under fun c => { c with hasAvx512dq := false }).cfg (.vpextrdEvex evexW0 regArgs) = false ∧
    featurePresent (under fun c => { c with hasAvx512dq := false }).cfg (.vpextrbEvex evexW0 regArgs) = true ∧
    osEnabled (under fun c => { c with osAvx := false }).cfg (.vex vexW0) = false ∧
    exec (.pextrb none regArgs) (under fun c => { c with hasSse41 := false }) = .fault (.ud 0x400000) ∧
    exec (.vpextrbVex vexW0 regArgs) (under fun c => { c with hasAvx := false }) = .fault (.ud 0x400000) ∧
    exec (.vpextrbEvex evexW0 regArgs) (under fun c => { c with hasAvx512bw := false }) = .fault (.ud 0x400000) ∧
    exec (.vpextrdEvex evexW0 regArgs) (under fun c => { c with hasAvx512dq := false }) = .fault (.ud 0x400000) ∧
    exec (.vpextrdVex vexW0 regArgs) (under fun c => { c with osAvx := false }) = .fault (.ud 0x400000) :=
  ⟨by decide, rfl, rfl, rfl, rfl, rfl, rfl, rfl, rfl⟩
/-- TaskSwitchedRaisesNm: VF11; and VF12, where L = 1 is reported first. -/
theorem witness_TaskSwitchedRaisesNm :
    WellFormed at64.mode (.pextrd none regArgs) = true ∧
    osEnabled (under fun c => { c with ts := true }).cfg (.legacy none) = true ∧
    featurePresent (under fun c => { c with ts := true }).cfg (.pextrd none regArgs) = true ∧
    lengthOk (.legacy none) = true ∧ vvvvOk (.legacy none) = true ∧
    exec (.pextrd none regArgs) (under fun c => { c with ts := true }) = .fault (.nm 0x400000) ∧
    exec (.vpextrbVex { vexW0 with l := true } regArgs) (under fun c => { c with ts := true }) =
      .fault (.ud 0x400000) := ⟨rfl, rfl, rfl, rfl, rfl, rfl, rfl⟩
/-- `at64` with alignment checking and `rax` one above a multiple of every width. -/
def misaligned : State := (under fun c => { c with alignCheck := true }).withGpr 0 0x1001

/-- MisalignedStoreRaisesAc: VF14, and VF15, where one byte is aligned. -/
theorem witness_MisalignedStoreRaisesAc :
    WellFormed misaligned.mode (.pextrd none memArgs) = true ∧ Unblocked (.pextrd none memArgs) misaligned ∧
    destOf (.pextrd none memArgs) misaligned = .mem 0x1001 ∧ misaligned.cfg.alignCheck = true ∧ 0x1001 % 4 ≠ 0 ∧
    exec (.pextrd none memArgs) misaligned = .fault (.memory .ac 0x400000 0x1001 4) ∧
    ∃ t, exec (.pextrb none memArgs) misaligned = .next t :=
  ⟨rfl, ⟨rfl, rfl, rfl, rfl, rfl⟩, rfl, rfl, by decide, rfl, _, rfl⟩

/-- `at64` on a platform that does not admit a four-byte store at `0x2000`. -/
def denied (check : Bool) : State :=
  under fun c => { c with denials := [⟨0x2000, 0x2000, 4, .pf 7⟩], alignCheck := check }

/-- UnadmittedStoreRaisesMemoryFault: VF13, with alignment checked and not, and VF16 at the top of the space. -/
theorem witness_UnadmittedStoreRaisesMemoryFault :
    (∀ check : Bool, WellFormed (denied check).mode (.pextrd none memArgs) = true ∧
      Unblocked (.pextrd none memArgs) (denied check) ∧
      destOf (.pextrd none memArgs) (denied check) = .mem 0x2000 ∧
      Denial.lookup (denied check).cfg.denials 0x2000 4 = some (.pf 7) ∧ 0x2000 % 4 = 0 ∧
      exec (.pextrd none memArgs) (denied check) = .fault (.memory (.pf 7) 0x400000 0x2000 4)) ∧
    2 ^ at64.mode.bits < 0xFFFFFFFFFFFFFFFC + 8 ∧
    exec (.pextrq rexW memArgs) (at64.withGpr 0 0xFFFFFFFFFFFFFFFC) =
      .fault (.memory .gp 0x400000 0xFFFFFFFFFFFFFFFC 8) :=
  ⟨fun check => by cases check <;> exact ⟨rfl, ⟨rfl, rfl, rfl, rfl, rfl⟩, rfl, rfl, rfl, rfl⟩, by decide, rfl⟩

/-- A text of one byte at `0x400000`, with `rax` at an address. -/
def nearText (addr : BitVec 64) : State := (start64 [0x66]).withGpr 0 addr

/-- StoreIntoTextFaults: the last byte of a store on the first byte of the text, its first byte on the last byte of
the text, and the stores just before and just after. -/
theorem witness_StoreIntoTextFaults :
    WellFormed (nearText 0x3FFFFD).mode (.pextrd none memArgs) = true ∧
    Unblocked (.pextrd none memArgs) (nearText 0x3FFFFD) ∧
    destOf (.pextrd none memArgs) (nearText 0x3FFFFD) = .mem 0x3FFFFD ∧
    (nearText 0x3FFFFD).memoryFault 0x3FFFFD 4 = none ∧
    (0x3FFFFD ≤ 0x400000 ∧ 0x400000 < 0x3FFFFD + 4 ∧ (nearText 0x3FFFFD).textBase ≤ 0x400000 ∧
      0x400000 < (nearText 0x3FFFFD).textLimit) ∧
    exec (.pextrd none memArgs) (nearText 0x3FFFFD) = .fault (.storeIntoText 0x400000 0x3FFFFD 4) ∧
    exec (.pextrd none memArgs) (nearText 0x400000) = .fault (.storeIntoText 0x400000 0x400000 4) ∧
    (∃ t, exec (.pextrd none memArgs) (nearText 0x3FFFFC) = .next t) ∧
    ∃ t, exec (.pextrd none memArgs) (nearText 0x400001) = .next t :=
  ⟨rfl, ⟨rfl, rfl, rfl, rfl, rfl⟩, rfl, rfl, by decide, rfl, rfl, ⟨_, rfl⟩, _, rfl⟩
/-- FaultHasAListedCause and FaultRecords: a fault of each cause; the vectors are R148's. -/
theorem witness_FaultHasAListedCause :
    exec (.vpextrbVex { vexW0 with l := true } regArgs) at64 = .fault (.ud 0x400000) ∧
    exec (.pextrb none regArgs) (under fun c => { c with ts := true }) = .fault (.nm 0x400000) ∧
    exec (.pextrd none memArgs) (denied false) = .fault (.memory (.pf 7) 0x400000 0x2000 4) ∧
    exec (.pextrd none memArgs) misaligned = .fault (.memory .ac 0x400000 0x1001 4) ∧
    exec (.pextrd none memArgs) (nearText 0x400000) = .fault (.storeIntoText 0x400000 0x400000 4) ∧
    (Fault.storeIntoText 0x400000 0x400000 4).vector = none ∧
    (Fault.memory .ac 0x400000 0x1001 4).pageFaultAddress = none := ⟨rfl, rfl, rfl, rfl, rfl, rfl, rfl⟩
/-- AdmittedEncodingRefusedOnlyAtTop: the instruction that ends at the last address completes no more, the one
before it does. -/
theorem witness_AdmittedEncodingRefusedOnlyAtTop :
    WellFormed at64.mode (.pextrb none regArgs) = true ∧ WellFormed at32.mode (.pextrb none regArgs) = true ∧
    exec (.pextrb none regArgs) (at64.withPc (2 ^ 64 - 6)) = .refused .pcPastTop ∧
    (∃ t, exec (.pextrb none regArgs) (at64.withPc (2 ^ 64 - 7)) = .next t ∧ t.pc = 2 ^ 64 - 1) ∧
    exec (.pextrb none regArgs) (at32.withPc (2 ^ 32 - 6)) = .refused .pcPastTop :=
  ⟨rfl, rfl, rfl, ⟨_, rfl, rfl⟩, rfl⟩
/-- NoQwordExtractInMode32: the bytes of VQ5 and VQ8 decode in 32-bit mode, as dword extracts. -/
theorem witness_NoQwordExtractInMode32 :
    decode .mode32 [0xC4, 0xE3, 0xF9, 0x16, 0xC8, 0x01] = .ok (.vpextrdVex vexW1 ⟨1, .reg 0, 1⟩, []) ∧
    decode .mode32 [0x62, 0xF3, 0xFD, 0x08, 0x16, 0xC8, 0x01] = .ok (.vpextrdEvex evexW1 ⟨1, .reg 0, 1⟩, []) :=
  ⟨rfl, rfl⟩
/-- FaultsIgnoreDataAndImmediate: a register form that faults, and one that differs in source and immediate. -/
theorem witness_FaultsIgnoreDataAndImmediate :
    (Instr.pextrb none ⟨7, .reg 0, 0xFF⟩).lead = (Instr.pextrb none regArgs).lead ∧
    (Instr.pextrb none ⟨7, .reg 0, 0xFF⟩).args.rm = regArgs.rm ∧
    destOf (.pextrb none regArgs) (under fun c => { c with ts := true }) = .reg 0 ∧
    exec (.pextrb none regArgs) (under fun c => { c with ts := true }) = .fault (.nm 0x400000) ∧
    exec (.pextrb none ⟨7, .reg 0, 0xFF⟩) (under fun c => { c with ts := true }) = .fault (.nm 0x400000) :=
  ⟨rfl, rfl, rfl, rfl, rfl⟩
/-- RegisterNumbers: the ends of the ranges, R58's r/m 7 with B, R59's XMM31, each prefix class, the memory form, and
no REX byte. -/
theorem witness_RegisterNumbers :
    destOf (.pextrb (some ⟨false, false, false, true⟩) ⟨1, .reg 7, 0⟩) at64 = .reg 15 ∧
    destOf (.vpextrbVex { vexW0 with b := true } ⟨1, .reg 0, 0⟩) at64 = .reg 8 ∧
    sourceOf (.vpextrbEvex { evexW0 with r := true, rHi := true } ⟨7, .mem (.base 0 .absent), 0⟩) at64 =
      at64.xmm 31 ∧
    sourceOf (.pextrb (some ⟨false, true, false, false⟩) ⟨0, .reg 0, 0⟩) at64 = at64.xmm 8 ∧
    (Instr.pextrb none ⟨1, .reg 7, 0⟩).lead = .legacy none ∧
    destOf (.pextrb none ⟨1, .reg 7, 0⟩) at64 = .reg 7 := ⟨rfl, rfl, rfl, rfl, rfl, rfl⟩
/-- EffectiveAddressMode64: VD31, VD22, VD24, VD23 (no index), VD26 (index r12), VD25, and a sum that wraps. -/
theorem witness_EffectiveAddressMode64 :
    at64.mode = .mode64 ∧
    effAddr at64 (.evex evexW0) 8 4 (.base 0 (.d8 0xFF)) = 0x1FFC ∧
    effAddr at64 (.legacy none) 10 4 (.disp32 0x10) = 0x40001A ∧
    effAddr (at64.withGpr 1 0x10) (.legacy none) 7 4 (.sib 2 1 0 .absent) = 0x2040 ∧
    effAddr (at64.withGpr 4 0x7FF0) (.legacy none) 7 4 (.sib 0 4 4 .absent) = 0x7FF0 ∧
    effAddr ((at64.withGpr 8 0x8000).withGpr 12 0xC000) (.legacy (some ⟨false, false, true, true⟩)) 8 4
      (.sib 0 4 0 .absent) = 0x14000 ∧
    effAddr at64 (.legacy none) 11 4 (.sibDisp32 0 4 0x3000) = 0x3000 ∧
    effAddr (at64.withGpr 0 0xFFFFFFFFFFFFFFFF) (.legacy none) 7 4 (.base 0 (.d8 1)) = 0 :=
  ⟨rfl, rfl, rfl, rfl, rfl, rfl, rfl, rfl⟩
/-- EffectiveAddressMode32: VD34's form, VD33, VB23, a bare displacement at the top, and a sum that wraps. -/
theorem witness_EffectiveAddressMode32 :
    at32.mode = .mode32 ∧ evexW0.x = false ∧ evexW0.b = false ∧
    effAddr (at32.withGpr 3 0x4000) (.legacy none) 7 4 (.base 3 (.d8 8)) = 0x4008 ∧
    effAddr at32 (.legacy none) 10 4 (.disp32 0x3000) = 0x3000 ∧
    effAddr at32 (.legacy none) 10 4 (.disp32 0xFFFFFFF0) = 0xFFFFFFF0 ∧
    effAddr (at32.withGpr 4 0x7FF0) (.legacy none) 7 1 (.sib 0 4 4 .absent) = 0x7FF0 ∧
    effAddr at32 (.legacy none) 7 1 (.sibDisp32 0 4 0xFFFFFFFF) = 0xFFFFFFFF ∧
    effAddr (at32.withGpr 0 0xFFFFFFFF) (.evex evexW0) 8 4 (.base 0 (.d8 1)) = 3 :=
  ⟨rfl, rfl, rfl, rfl, rfl, rfl, rfl, rfl, rfl⟩
/-- DecodeOfEncode: admitted terms of each mode. -/
theorem witness_DecodeOfEncode :
    WellFormed .mode64 (.pextrq rexW ⟨7, .mem (.sibDisp32 3 7 0x80000000), 0xFF⟩) = true ∧
    encode (.pextrq rexW ⟨7, .mem (.sibDisp32 3 7 0x80000000), 0xFF⟩) =
      [0x66, 0x48, 0x0F, 0x3A, 0x16, 0x3C, 0xFD, 0x00, 0x00, 0x00, 0x80, 0xFF] ∧
    WellFormed .mode32 (.vpextrdEvex evexW1 memArgs) = true := ⟨rfl, rfl, rfl⟩
/-- DecodedLength: the shortest and the longest instruction (R51), each with a byte after it. -/
theorem witness_DecodedLength :
    decode .mode64 [0x66, 0x0F, 0x3A, 0x14, 0xC8, 0x05, 0x90] = .ok (.pextrb none regArgs, [0x90]) ∧
    ilen (.pextrb none regArgs) = 6 ∧
    decode .mode64 [0x66, 0x48, 0x0F, 0x3A, 0x16, 0x3C, 0xFD, 0x00, 0x00, 0x00, 0x80, 0xFF, 0x90] =
      .ok (.pextrq rexW ⟨7, .mem (.sibDisp32 3 7 0x80000000), 0xFF⟩, [0x90]) ∧
    ilen (.pextrq rexW ⟨7, .mem (.sibDisp32 3 7 0x80000000), 0xFF⟩) = 12 := ⟨rfl, rfl, rfl, rfl⟩
/-- EncodeOfDecode, EvexAdmittedOnlyCanonical, Mode32ExtensionBitsAreOnes (its EVEX clause) and the EVEX clauses of
OpcodeMap and EvexWIgnored: bytes that decode in 32-bit mode, with either W, and the refused form. -/
theorem witness_evex_bytes_decode :
    (∃ o, decode .mode32 [0x62, 0xF3, 0x7D, 0x08, 0x16, 0x08, 0x01] = .ok o) ∧
    (0x7D#8 ^^^ 0x80#8) = 0xFD#8 ∧ memArgs.rm.hasDisp8 = false ∧
    decode .mode32 [0x62, 0xF3, 0x7D, 0x08, 0x16, 0x48, 0x02, 0x01] = .ok (.vpextrdEvex evexW0 disp8Args, []) ∧
    disp8Args.rm.hasDisp8 = true ∧ (0x7D#8).getLsbD 7 = false := ⟨⟨_, rfl⟩, rfl, rfl, rfl, rfl, rfl⟩
/-- OpcodeMap, VexWIgnored and Mode32ExtensionBitsAreOnes (its VEX clause): bytes of the other classes decode. -/
theorem witness_OpcodeMap :
    (∃ o, decode .mode32 [0x66, 0x0F, 0x3A, 0x14, 0xC8, 0x05] = .ok o) ∧
    (0x48#8).extractLsb' 4 4 = 4#4 ∧ (∃ o, decode .mode64 [0x66, 0x48, 0x0F, 0x3A, 0x16, 0xCA, 0x01] = .ok o) ∧
    (∃ o, decode .mode32 [0xC4, 0xE3, 0x79, 0x16, 0xC8, 0x01] = .ok o) ∧
    (∃ o, decode .mode64 [0xC4, 0xE3, 0x79, 0x14, 0xC8, 0x05] = .ok o) ∧
    (0x79#8 ^^^ 0x80#8) = 0xF9#8 ∧
    destOf (.vpextrdVex vexW1 ⟨1, .reg 7, 1⟩) at32 = .reg 7 :=
  ⟨⟨_, rfl⟩, by decide, ⟨_, rfl⟩, ⟨_, rfl⟩, ⟨_, rfl⟩, by decide, rfl⟩
/-- WBitRules: REX bytes with either W, and both bytes of each pair of VEX and EVEX forms, decode. -/
theorem witness_WBitRules :
    (0x48#8).extractLsb' 4 4 = 4#4 ∧ (0x40#8 ^^^ 0x08#8) = 0x48#8 ∧
    (∃ o, decode .mode64 [0x66, 0x40, 0x0F, 0x3A, 0x14, 0xC8, 0x05] = .ok o) ∧
    decode .mode64 [0x66, 0x40, 0x0F, 0x3A, 0x16, 0xC8, 0x05] =
      .ok (.pextrd (some ⟨false, false, false, false⟩) ⟨1, .reg 0, 5⟩, []) ∧
    (∃ o, decode .mode32 [0xC4, 0xE3, 0x79, 0x16, 0xC8, 0x01] = .ok o) ∧
    (∃ o, decode .mode32 [0xC4, 0xE3, 0xF9, 0x16, 0xC8, 0x01] = .ok o) ∧
    (∃ o, decode .mode32 [0x62, 0xF3, 0x7D, 0x08, 0x16, 0xC8, 0x01] = .ok o) ∧
    (∃ o, decode .mode32 [0x62, 0xF3, 0xFD, 0x08, 0x16, 0xC8, 0x01] = .ok o) ∧ regArgs.rm.hasDisp8 = false :=
  ⟨by decide, by decide, ⟨_, rfl⟩, rfl, ⟨_, rfl⟩, ⟨_, rfl⟩, ⟨_, rfl⟩, ⟨_, rfl⟩, rfl⟩
/-- OtherPrefixesRefused: two REX bytes. -/
theorem witness_OtherPrefixesRefused : (0x40#8).extractLsb' 4 4 = 4#4 ∧ (0x4F#8).extractLsb' 4 4 = 4#4 := by decide

/-- Program P1's first instruction, in section 2's start. -/
def p1 : State := start64 [0x66, 0x0F, 0x3A, 0x14, 0xC8, 0x05]

/-- StepRunsDecodedInstruction: the first byte of the text, and (one past an instruction) a later one. -/
theorem witness_StepRunsDecodedInstruction :
    p1.textBase ≤ p1.pc ∧ p1.pc < p1.textLimit ∧
    decode p1.mode (p1.text.drop (p1.pc - p1.textBase)) = .ok (.pextrb none regArgs, []) := by
  refine ⟨by decide, by decide, rfl⟩
/-- StepStopsWithoutInstruction: at the end, at the last byte, just before the text and just after its end. -/
theorem witness_StepStopsWithoutInstruction :
    (p1.withPc 0x400006).pc = (p1.withPc 0x400006).textLimit ∧
    step (p1.withPc 0x400006) = .refused .endOfRun ∧
    step (p1.withPc 0x400005) = .refused (.undecodable .unknownOpcode) ∧
    step (p1.withPc 0x400001) = .refused (.undecodable .unknownOpcode) ∧
    step (p1.withPc 0x3FFFFF) = .refused .outsideText ∧
    step (p1.withPc 0x400007) = .refused .outsideText := ⟨rfl, rfl, rfl, rfl, rfl, rfl⟩
/-- PlacedTableWordRuns: row 1 as the first instruction after reset writes a byte at address 0. -/
theorem witness_PlacedTableWordRuns :
    decodeTableWord 32 0x143A0F66 = some (.pextrb none ⟨0, .mem (.base 0 .absent), 0⟩) ∧
    State.reset.mode = .mode64 ∧
    memAfter (State.reset.withFetchWord 32 0x143A0F66) 1 1 = some (none, some 0, none, 0x400006) := by
  refine ⟨rfl, rfl, by decide⟩
/-- StepKeepsInv, NoRunChangesSystemState and ProgramTextIsFixed: a state that meets the invariant, whose step
answers a next state, which it reaches. -/
theorem witness_StepKeepsInv : p1.Inv ∧ ∃ t, step p1 = .next t ∧ Reaches p1 t :=
  ⟨⟨rfl, rfl, fun _ _ _ => rfl, by decide, by decide, by decide⟩, _, rfl, .step .refl rfl⟩

end Sys2Proof.Tests
end

section
/-! PROOFS. What an instruction reads of a state and the value it writes, and from them the statements of
10_state.md on the register destination (R11) and the flags (R18). -/

namespace Sys2Proof.Machine

/-! ## The value written (R92 to R94) -/

theorem instr_bytes_cases (i : Instr) : i.bytes = 1 ∨ i.bytes = 4 ∨ i.bytes = 8 := by
  cases i <;> simp [Instr.bytes]

/-- Shifting lane `k` of `n` bits down and masking it off is taking those bits. -/
theorem setWidth_ushiftRight_and_mask {n : Nat} {mask : XmmWord} (hm : mask.setWidth n = BitVec.allOnes n)
    (src : XmmWord) (k : Nat) : ((src >>> (k * n)) &&& mask).setWidth n = src.extractLsb' (n * k) n := by
  rw [BitVec.setWidth_and, hm, BitVec.and_allOnes, BitVec.setWidth_ushiftRight_eq_extractLsb, Nat.mul_comm]

theorem extractByte_eq (src : XmmWord) (imm : Byte) :
    extractByte src imm = src.extractLsb' (8 * (imm.toNat % 16)) 8 :=
  setWidth_ushiftRight_and_mask (by decide) src (imm.extractLsb' 0 4).toNat

theorem extractDword_eq (src : XmmWord) (imm : Byte) :
    extractDword src imm = src.extractLsb' (32 * (imm.toNat % 4)) 32 :=
  setWidth_ushiftRight_and_mask (by decide) src (imm.extractLsb' 0 2).toNat

theorem extractQword_eq (src : XmmWord) (imm : Byte) :
    extractQword src imm = src.extractLsb' (64 * (imm.toNat % 2)) 64 := by
  rw [extractQword, BitVec.setWidth_ushiftRight_eq_extractLsb, BitVec.extractLsb'_toNat, Nat.mul_comm]
  rfl

/-- The three extractions are one lane selection, whatever the width of the element (R98). -/
theorem extracted_eq_lane {n : Nat} (h : n = 1 ∨ n = 4 ∨ n = 8) (src : XmmWord) (imm : Byte) :
    extracted n src imm = lane n src imm := by
  rcases h with rfl | rfl | rfl
  · simp [extracted, lane, extractByte_eq]
  · simp [extracted, lane, extractDword_eq]
  · simp [extracted, lane, extractQword_eq]

theorem extractLsb'_valueOf (i : Instr) (s : State) :
    (valueOf i s).extractLsb' 0 (8 * i.bytes) =
      (sourceOf i s).extractLsb' (8 * i.bytes * (i.args.imm.toNat % (16 / i.bytes))) (8 * i.bytes) := by
  have hn : 0 + 8 * i.bytes ≤ 64 := by
    rcases instr_bytes_cases i with h | h | h <;> omega
  rw [valueOf, lane, BitVec.extractLsb'_setWidth_of_le hn, BitVec.extractLsb'_eq_self]

theorem getLsbD_valueOf_of_ge {i : Instr} {b : Nat} (s : State) (h : 8 * i.bytes ≤ b) :
    (valueOf i s).getLsbD b = false := by
  rw [valueOf, lane, BitVec.getLsbD_setWidth, BitVec.getLsbD_of_ge _ b h, Bool.and_false]

/-- `exec_next` for a register destination: the lane goes to that register and the program counter moves. -/
theorem exec_next_reg {i : Instr} {s t : State} {d : BitVec 4} (hd : destOf i s = .reg d)
    (h : exec i s = .next t) : t = (s.withGpr d (valueOf i s)).withPc (s.pc + ilen i) := by
  obtain ⟨-, -, -, -, -, -, -, ht⟩ := exec_next h
  rw [ht, hd, extracted_eq_lane (instr_bytes_cases i)]
  rfl

/-! ## What an instruction reads -/

/-- The states `s` and `u` agree on everything the instruction reads: the mode, the program counter, the
parameters, where the program text stands, and both operands. -/
structure SameInputs (i : Instr) (s u : State) : Prop where
  mode     : u.mode = s.mode
  pc       : u.pc = s.pc
  cfg      : u.cfg = s.cfg
  textBase : u.textBase = s.textBase
  text     : u.text = s.text
  dest     : destOf i u = destOf i s
  source   : sourceOf i u = sourceOf i s

theorem State.mapNext_gate (f : State → State) (s : State) (e p r : Bool) (k : Result) :
    mapNext f (s.gate e p r k) = s.gate e p r (mapNext f k) := by
  unfold State.gate State.raise
  split_ifs <;> rfl

theorem State.mapNext_guardEncodable (f : State → State) (s : State) (i : Instr) (k : Result) :
    mapNext f (s.guardEncodable i k) = s.guardEncodable i (mapNext f k) := by
  unfold State.guardEncodable
  split_ifs <;> rfl

theorem State.advance_eq_mapNext {f : State → State} {s u : State} {len : Nat} (hm : u.mode = s.mode)
    (hp : u.pc = s.pc) (hf : u.withPc (s.pc + len) = f (s.withPc (s.pc + len))) :
    u.advance len = mapNext f (s.advance len) := by
  simp only [State.advance, State.flagged_eq, hm, hp]
  split_ifs
  · rw [hf]; rfl
  · rfl

section
variable {i : Instr} {s u : State} (h : SameInputs i s u)
include h

theorem SameInputs.guardEncodable (k : Result) : u.guardEncodable i k = s.guardEncodable i k := by
  rw [State.guardEncodable, State.guardEncodable, h.mode]

theorem SameInputs.gate (e p r : Bool) (k : Result) : u.gate e p r k = s.gate e p r k := by
  simp only [State.gate, State.raise, h.cfg, h.pc]

theorem SameInputs.blocked (d : Dest) (n : Nat) : u.blocked d n = s.blocked d n := by
  cases d with
  | reg d => rfl
  | mem ea =>
    have hf : u.memoryFault ea n = s.memoryFault ea n := by
      rw [State.memoryFault, State.memoryFault, h.cfg, h.mode]
    have ho : u.overlapsText ea n = s.overlapsText ea n := by
      rw [State.overlapsText, State.overlapsText, State.textLimit, State.textLimit, h.text, h.textBase]
    simp only [State.blocked, hf, ho, h.pc]

/-- An instruction that reads the same does the same: if `f` takes what the write leaves of `s` to what it leaves
of `u`, it takes the one result to the other. -/
theorem SameInputs.exec_eq_mapNext {f : State → State}
    (hf : ∀ t n, (u.written (destOf i s) i.bytes t).withPc n = f ((s.written (destOf i s) i.bytes t).withPc n)) :
    exec i u = mapNext f (exec i s) := by
  have hw (t : BitVec 64) (len : Nat) :
      u.writeDest (destOf i s) i.bytes t len = mapNext f (s.writeDest (destOf i s) i.bytes t len) := by
    rw [State.writeDest_eq, State.writeDest_eq, h.blocked]
    cases s.blocked (destOf i s) i.bytes with
    | some r => rfl
    | none => exact State.advance_eq_mapNext (by simp [h.mode]) (by simp [h.pc]) (hf t _)
  rw [exec_eq, exec_eq, State.mapNext_guardEncodable, State.mapNext_gate, h.guardEncodable, h.gate, h.cfg, h.dest,
    h.source, hw]

end

/-! ## The register destination (R11) -/

theorem destOf_eq_reg_iff {i : Instr} {s : State} {d : BitVec 4} :
    destOf i s = .reg d ↔ ∃ rm, i.args.rm = .reg rm ∧ gprNum (extB i.lead) rm = d := by
  cases h : i.args.rm <;> simp [destOf, dest, h]

/-- A register form reads no general register. -/
theorem SameInputs.withGpr_of_reg {i : Instr} {s : State} {d : BitVec 4} (hd : destOf i s = .reg d)
    (j : BitVec 4) (v : BitVec 64) : SameInputs i s (s.withGpr j v) where
  mode := s.withGpr_mode j v
  pc := s.withGpr_pc j v
  cfg := rfl
  textBase := rfl
  text := rfl
  dest := (destOf_eq_reg_iff.mpr (destOf_eq_reg_iff.mp hd)).trans hd.symm
  source := rfl

theorem State.withGpr_withGpr_same (s : State) (d : BitVec 4) (v w : BitVec 64) :
    (s.withGpr d v).withGpr d w = s.withGpr d w := by
  rcases s with ⟨_ | _⟩ <;> simp [State.withGpr, Regs.withGpr]

/-- The old value of a register destination is overwritten whole, so nothing depends on it. -/
theorem exec_withGpr_dest {i : Instr} {s : State} {d : BitVec 4} (hd : destOf i s = .reg d) (v : BitVec 64) :
    exec i (s.withGpr d v) = exec i s := by
  have h : exec i (s.withGpr d v) = mapNext id (exec i s) := by
    refine (SameInputs.withGpr_of_reg hd d v).exec_eq_mapNext fun t n => ?_
    simp only [hd, State.written, State.withGpr_withGpr_same, id]
  rw [h]
  cases exec i s <;> rfl

/-- Settles O12: the destination holds the lane widened with zeros, and its old value is overwritten whole. -/
theorem registerWriteIsFullWidth64 : Obligations.RegisterWriteIsFullWidth64 := by
  intro i s t d hm hd ht
  have hv : t.gpr d = valueOf i s := by
    rw [exec_next_reg hd ht, State.withPc_gpr, State.withGpr_gpr_mode64 s d _ hm]
  refine ⟨?_, fun b hb => ?_, fun v => ⟨t, ?_, rfl⟩⟩
  · rw [hv, extractLsb'_valueOf]
  · rw [hv, getLsbD_valueOf_of_ge s hb]
  · rw [exec_withGpr_dest hd, ht]

/-! ## The flags (R18) -/

@[simp] theorem State.written_flags (s : State) (d : Dest) (n : Nat) (t : BitVec 64) :
    (s.written d n t).flags = s.flags := by
  cases d <;> rfl

@[simp] theorem State.written_mxcsr (s : State) (d : Dest) (n : Nat) (t : BitVec 64) :
    (s.written d n t).mxcsr = s.mxcsr := by
  cases d <;> rfl

theorem State.written_withFlags_withPc (s : State) (flags : BitVec 64) (mxcsr : BitVec 32) (d : Dest) (n : Nat)
    (t : BitVec 64) (pc : Nat) :
    ((s.withFlags flags mxcsr).written d n t).withPc pc =
      ((s.written d n t).withPc pc).withFlags flags mxcsr := by
  cases d <;> rfl

/-- No instruction reads the flags or MXCSR. -/
theorem SameInputs.withFlags (i : Instr) (s : State) (flags : BitVec 64) (mxcsr : BitVec 32) :
    SameInputs i s (s.withFlags flags mxcsr) := by
  constructor <;> rfl

theorem exec_withFlags (i : Instr) (s : State) (flags : BitVec 64) (mxcsr : BitVec 32) :
    exec i (s.withFlags flags mxcsr) = mapNext (fun t => t.withFlags flags mxcsr) (exec i s) :=
  (SameInputs.withFlags i s flags mxcsr).exec_eq_mapNext fun t n =>
    s.written_withFlags_withPc flags mxcsr (destOf i s) i.bytes t n

/-- Settles O16: neither the write nor completion touches the flags, and they are none of the inputs. -/
theorem flagsNeitherReadNorWritten : Obligations.FlagsNeitherReadNorWritten := by
  intro i s flags mxcsr
  refine ⟨fun t ht => ?_, exec_withFlags i s flags mxcsr⟩
  obtain ⟨-, -, -, -, -, -, -, rfl⟩ := exec_next ht
  exact ⟨State.written_flags .., State.written_mxcsr ..⟩

end Sys2Proof.Machine
end

section
/-! PROOFS. The VEX and EVEX byte strings the decoder accepts, field by field, and from them the statements of
30_encoding.md on the reserved fields (R66, R67): neither the row nor the operands depend on them, and
the gate answers #UD. -/

namespace Sys2Proof.Machine

/-! ## The gate as a cause of #UD (R149, steps 1 to 3) -/

/-- An admitted encoding that fails a check of steps 1 to 3 raises #UD, whatever its operands. -/
theorem exec_eq_ud {i : Instr} {s : State} (hw : WellFormed s.mode i = true)
    (h : osEnabled s.cfg i.lead = false ∨ featurePresent s.cfg i = false ∨
      (lengthOk i.lead && vvvvOk i.lead) = false) : exec i s = .fault (.ud s.pc) := by
  rw [exec_eq, State.guardEncodable_pass s hw]
  obtain ⟨-, e⟩ | ⟨he, hf, hr, -⟩ | ⟨he, hf, hr, -⟩ := State.gate_cases s (osEnabled s.cfg i.lead)
    (featurePresent s.cfg i) (lengthOk i.lead && vvvvOk i.lead)
    (s.writeDest (destOf i s) i.bytes (extracted i.bytes (sourceOf i s) i.args.imm) (ilen i))
  · exact e
  · simp [he, hf, hr] at h
  · simp [he, hf, hr] at h

/-! ## The bytes from the opcode byte on (R57, R65) -/

/-- `bs` begins with the opcode byte `op` of the family and the operand bytes `a`, and `rest` follows them. -/
def OpcodeAndArgs (bs : List Byte) (op : Byte) (a : Args) (rest : List Byte) : Prop :=
  (op = 0x14#8 ∨ op = 0x16#8) ∧ ∃ tl, bs = op :: tl ∧ takeArgs tl = .ok (a, rest)

theorem OpcodeAndArgs.args_wf {bs rest : List Byte} {op : Byte} {a : Args} (h : OpcodeAndArgs bs op a rest) :
    a.wf = true := by
  obtain ⟨-, tl, -, ha⟩ := h
  exact (encode_of_takeArgs ha).1

/-! ## The VEX class (R55, R65, R66) -/

@[simp] theorem vexRow_lead (m : Mode) (p : Vex) (op : Byte) (a : Args) : (vexRow m p op a).lead = .vex p := by
  unfold vexRow; split_ifs <;> rfl

@[simp] theorem vexRow_args (m : Mode) (p : Vex) (op : Byte) (a : Args) : (vexRow m p op a).args = a := by
  unfold vexRow; split_ifs <;> rfl

theorem vexRow_bytes (m : Mode) (p : Vex) (op : Byte) (a : Args) :
    (vexRow m p op a).bytes = if op = 0x14#8 then 1 else if m = .mode64 ∧ p.w = true then 8 else 4 := by
  unfold vexRow; split_ifs <;> rfl

theorem wellFormed_vexRow {m : Mode} {p : Vex} {a : Args} (op : Byte) (hp : p.wf m = true) (ha : a.wf = true) :
    WellFormed m (vexRow m p op a) = true := by
  unfold vexRow
  split_ifs with h14 hq
  · simp [WellFormed, hp, ha]
  · obtain ⟨rfl, hw⟩ := hq
    simp [WellFormed, hp, ha, hw]
  · simpa [WellFormed, hp, ha, imp_iff_not_or] using hq

/-- The fixed fields of the two VEX payload bytes: map 0F3A, implied 66 and, in 32-bit mode, the extension bits
stored as ones (R55, R71). -/
structure VexPayload (m : Mode) (b1 b2 : Byte) : Prop where
  map : b1.extractLsb' 0 5 = 3#5
  pp  : b2.extractLsb' 0 2 = 1#2
  ext : m = .mode32 → b1.extractLsb' 5 3 = 7#3

theorem VexPayload.wf {m : Mode} {b1 b2 : Byte} (h : VexPayload m b1 b2) : (vexOf b1 b2).wf m = true := by
  have ones : ∀ b : Byte, b.extractLsb' 5 3 = 7#3 → (b.getLsbD 7 && b.getLsbD 6 && b.getLsbD 5) = true := by
    decide
  cases m with
  | mode64 => rfl
  | mode32 => simpa [Vex.wf, vexOf] using ones b1 (h.ext rfl)

/-- The VEX byte strings the decoder accepts, and what it makes of them. -/
theorem decode_vex_ok_iff {m : Mode} {b1 b2 : Byte} {bs rest : List Byte} {i : Instr} :
    decode m (0xC4#8 :: b1 :: b2 :: bs) = .ok (i, rest) ↔
      VexPayload m b1 b2 ∧ ∃ op a, OpcodeAndArgs bs op a rest ∧ i = vexRow m (vexOf b1 b2) op a := by
  change decodeVex m (b1 :: b2 :: bs) = .ok (i, rest) ↔ _
  constructor
  · intro h
    obtain ⟨_, _, op, a, tl, hop, hbs, hext, hmap, hpp, ha, hi⟩ := decodeVex_ok h
    simp only [List.cons.injEq] at hbs
    obtain ⟨rfl, rfl, rfl⟩ := hbs
    exact ⟨⟨hmap, hpp, hext⟩, op, a, ⟨hop, tl, rfl, ha⟩, hi⟩
  · rintro ⟨⟨hmap, hpp, hext⟩, op, a, ⟨hop, tl, rfl, ha⟩, rfl⟩
    have hop' : ¬ (op ≠ 0x14#8 ∧ op ≠ 0x16#8) := by tauto
    have hext' : ¬ (m = .mode32 ∧ b1.extractLsb' 5 3 ≠ 7#3) := by tauto
    simp only [decodeVex, hmap, hpp, hext', hop', ha, ne_eq, not_true_eq_false, or_self, if_false]

/-- Byte 2 with L = 0 and vvvv = 1111b has the same fixed field and the same W. -/
theorem vex_byte2_canonical (b2 : Byte) :
    ((b2 &&& 0x83#8) ||| 0x78#8).extractLsb' 0 2 = b2.extractLsb' 0 2 ∧
      ((b2 &&& 0x83#8) ||| 0x78#8).getLsbD 7 = b2.getLsbD 7 := by
  revert b2; decide

/-- Settles O23: the decoder reads L and vvvv into the term and looks at neither; the gate refuses the term. -/
theorem vexReservedFieldsRecognisedAndTrap : Obligations.VexReservedFieldsRecognisedAndTrap := by
  intro s b1 b2 bs hres
  obtain ⟨hpp, hw⟩ := vex_byte2_canonical b2
  refine ⟨fun i rest h => ?_, fun j rest h => ?_⟩
  · obtain ⟨hf, op, a, ht, rfl⟩ := decode_vex_ok_iff.mp h
    refine ⟨vexRow s.mode (vexOf b1 b2) op a,
      decode_vex_ok_iff.mpr ⟨⟨hf.map, hpp ▸ hf.pp, hf.ext⟩, op, a, ht, rfl⟩, ?_, by simp⟩
    simp only [vexRow_bytes, vexOf, hw]
  · obtain ⟨hf, op, a, ht, rfl⟩ := decode_vex_ok_iff.mp h
    have hr : (lengthOk (.vex (vexOf b1 b2)) && vvvvOk (.vex (vexOf b1 b2))) = false := by
      rcases hres with hl | hv
      · simp [lengthOk, vexOf, hl]
      · simp [vvvvOk, vexOf, hv]
    exact exec_eq_ud (wellFormed_vexRow op hf.wf ht.args_wf) (.inr (.inr (by simpa using hr)))

/-! ## The EVEX class (R56, R65, R67, R68) -/

@[simp] theorem evexRow_lead (m : Mode) (p : Evex) (op : Byte) (a : Args) :
    (evexRow m p op a).lead = .evex p := by
  unfold evexRow; split_ifs <;> rfl

@[simp] theorem evexRow_args (m : Mode) (p : Evex) (op : Byte) (a : Args) : (evexRow m p op a).args = a := by
  unfold evexRow; split_ifs <;> rfl

theorem evexRow_bytes (m : Mode) (p : Evex) (op : Byte) (a : Args) :
    (evexRow m p op a).bytes = if op = 0x14#8 then 1 else if m = .mode64 ∧ p.w = true then 8 else 4 := by
  unfold evexRow; split_ifs <;> rfl

theorem evexArgsReject_eq_none {m : Mode} {p : Evex} {op : Byte} {a : Args} :
    evexArgsReject m p op a = none ↔ ¬ (p.x = true ∧ a.rm.isReg = true) ∧
      ¬ (m = .mode32 ∧ op = 0x16#8 ∧ p.w = true ∧ a.rm.hasDisp8 = true) := by
  unfold evexArgsReject
  split_ifs with hx hd
  · simp [hx]
  · simp [hx, hd]
  · simp [hx, hd]

theorem wellFormed_evexRow {m : Mode} {p : Evex} {op : Byte} {a : Args} (hop : op = 0x14#8 ∨ op = 0x16#8)
    (hp : p.wf m a = true) (ha : a.wf = true) (hn : evexArgsReject m p op a = none) :
    WellFormed m (evexRow m p op a) = true := by
  obtain ⟨-, hd⟩ := evexArgsReject_eq_none.mp hn
  unfold evexRow
  split_ifs with h14 hq
  · simp [WellFormed, hp, ha]
  · obtain ⟨rfl, hw⟩ := hq
    simp [WellFormed, hp, ha, hw]
  · obtain rfl := hop.resolve_left h14
    have hw : (m == .mode64 && p.w) = false := by simpa using hq
    have hd8 : (m == .mode32 && p.w && a.rm.hasDisp8) = false := by simpa using hd
    simp only [WellFormed, hp, ha, hw, hd8]
    rfl

/-- The fixed fields of the three EVEX payload bytes: map 0F3A, implied 66, the canonical values of R68 and, in
32-bit mode, the extension bits stored as ones (R56, R71). -/
structure EvexPayload (m : Mode) (p0 p1 p2 : Byte) : Prop where
  map  : p0.extractLsb' 0 3 = 3#3
  pp   : p1.extractLsb' 0 2 = 1#2
  p0b3 : p0.getLsbD 3 = false
  p1b2 : p1.getLsbD 2 = true
  z    : p2.getLsbD 7 = false
  low  : p2.extractLsb' 0 5 = 8#5
  ext  : m = .mode32 → p0.extractLsb' 4 4 = 15#4

theorem EvexPayload.wf {m : Mode} {p0 p1 p2 op : Byte} {a : Args} (h : EvexPayload m p0 p1 p2)
    (hn : evexArgsReject m (evexOf p0 p1 p2) op a = none) : (evexOf p0 p1 p2).wf m a = true := by
  have ones : ∀ b : Byte, b.extractLsb' 4 4 = 15#4 →
      (b.getLsbD 7 && b.getLsbD 6 && b.getLsbD 5 && b.getLsbD 4) = true := by decide
  obtain ⟨hx, -⟩ := evexArgsReject_eq_none.mp hn
  have hx' : ((evexOf p0 p1 p2).x && a.rm.isReg) = false := by simpa using hx
  simp only [Evex.wf, hx', Bool.not_false, Bool.and_true]
  cases m with
  | mode64 => rfl
  | mode32 => simpa [evexOf] using ones p0 (h.ext rfl)

/-- The EVEX byte strings the decoder accepts, and what it makes of them. -/
theorem decode_evex_ok_iff {m : Mode} {p0 p1 p2 : Byte} {bs rest : List Byte} {i : Instr} :
    decode m (0x62#8 :: p0 :: p1 :: p2 :: bs) = .ok (i, rest) ↔
      EvexPayload m p0 p1 p2 ∧ ∃ op a, OpcodeAndArgs bs op a rest ∧
        evexArgsReject m (evexOf p0 p1 p2) op a = none ∧ i = evexRow m (evexOf p0 p1 p2) op a := by
  change decodeEvex m (p0 :: p1 :: p2 :: bs) = .ok (i, rest) ↔ _
  constructor
  · intro h
    obtain ⟨_, _, _, op, a, tl, hop, hbs, hext, hmap, hpp, h03, h12, hz, hlow, ha, hn, hi⟩ := decodeEvex_ok h
    simp only [List.cons.injEq] at hbs
    obtain ⟨rfl, rfl, rfl, rfl⟩ := hbs
    exact ⟨⟨hmap, hpp, h03, h12, hz, hlow, hext⟩, op, a, ⟨hop, tl, rfl, ha⟩, hn, hi⟩
  · rintro ⟨⟨hmap, hpp, h03, h12, hz, hlow, hext⟩, op, a, ⟨hop, tl, rfl, ha⟩, hn, rfl⟩
    have hop' : ¬ (op ≠ 0x14#8 ∧ op ≠ 0x16#8) := by tauto
    have hext' : ¬ (m = .mode32 ∧ p0.extractLsb' 4 4 ≠ 15#4) := by tauto
    simp only [decodeEvex, hmap, hpp, h03, h12, hz, hlow, hext', hop', ha, hn, ne_eq, not_true_eq_false,
      Bool.false_eq_true, Bool.true_eq_false, or_self, if_false]

/-- P1 with vvvv = 1111b has the same fixed fields and the same W. -/
theorem evex_p1_canonical (p1 : Byte) :
    (p1 ||| 0x78#8).extractLsb' 0 2 = p1.extractLsb' 0 2 ∧ (p1 ||| 0x78#8).getLsbD 2 = p1.getLsbD 2 ∧
      (p1 ||| 0x78#8).getLsbD 7 = p1.getLsbD 7 := by
  revert p1; decide

/-- P2 with L'L = 00b has the same fixed fields. -/
theorem evex_p2_canonical (p2 : Byte) :
    (p2 &&& 0x9F#8).getLsbD 7 = p2.getLsbD 7 ∧ (p2 &&& 0x9F#8).extractLsb' 0 5 = p2.extractLsb' 0 5 := by
  revert p2; decide

/-- Settles O24: the decoder reads L'L and vvvv into the term and looks at neither, also where it refuses an
operand; the gate refuses the term. -/
theorem evexReservedFieldsRecognisedAndTrap : Obligations.EvexReservedFieldsRecognisedAndTrap := by
  intro s p0 p1 p2 bs hres
  obtain ⟨hpp, h12, hw⟩ := evex_p1_canonical p1
  obtain ⟨hz, hlow⟩ := evex_p2_canonical p2
  refine ⟨fun i rest h => ?_, fun j rest h => ?_⟩
  · obtain ⟨hf, op, a, ht, hn, rfl⟩ := decode_evex_ok_iff.mp h
    have hf' : EvexPayload s.mode p0 p1 p2 :=
      { map := hf.map, pp := hpp ▸ hf.pp, p0b3 := hf.p0b3, p1b2 := h12 ▸ hf.p1b2, z := hz ▸ hf.z
        low := hlow ▸ hf.low, ext := hf.ext }
    have hn' : evexArgsReject s.mode (evexOf p0 p1 p2) op a = none := by
      simpa only [evexArgsReject_eq_none, evexOf, hw] using hn
    refine ⟨evexRow s.mode (evexOf p0 p1 p2) op a,
      decode_evex_ok_iff.mpr ⟨hf', op, a, ht, hn', rfl⟩, ?_, by simp⟩
    simp only [evexRow_bytes, evexOf, hw]
  · obtain ⟨hf, op, a, ht, hn, rfl⟩ := decode_evex_ok_iff.mp h
    have hr : (lengthOk (.evex (evexOf p0 p1 p2)) && vvvvOk (.evex (evexOf p0 p1 p2))) = false := by
      rcases hres with hl | hv
      · simp [lengthOk, evexOf, hl]
      · simp [vvvvOk, evexOf, hv]
    exact exec_eq_ud (wellFormed_evexRow ht.1 (hf.wf hn) ht.args_wf hn) (.inr (.inr (by simpa using hr)))

end Sys2Proof.Machine
end

section
/-! PROOFS. The three extractions as selections of a lane by the low bits of imm8 (R92 to R94), and what an admitted
encoding does to the program counter (R99). -/

namespace Sys2Proof.Machine

/-! ## Completion (R99) -/

/-- An admitted encoding faults, or it comes to completion with the destination written. -/
theorem exec_fault_or_advance {i : Instr} {s : State} (hw : WellFormed s.mode i = true) :
    (∃ f, exec i s = .fault f) ∨
      exec i s = (s.written (destOf i s) i.bytes (extracted i.bytes (sourceOf i s) i.args.imm)).advance (ilen i) := by
  rw [exec_eq, State.guardEncodable_pass s hw]
  obtain ⟨-, e⟩ | ⟨-, -, -, -, e⟩ | ⟨-, -, -, -, e⟩ := State.gate_cases s (osEnabled s.cfg i.lead)
    (featurePresent s.cfg i) (lengthOk i.lead && vvvvOk i.lead)
    (s.writeDest (destOf i s) i.bytes (extracted i.bytes (sourceOf i s) i.args.imm) (ilen i))
  · exact .inl ⟨_, e⟩
  · exact .inl ⟨_, e⟩
  · rw [e, State.writeDest_eq]
    cases s.blocked (destOf i s) i.bytes with
    | some f => exact .inl ⟨f, rfl⟩
    | none => exact .inr rfl

/-- The bytes at the program counter depend on the program counter and the program text only. -/
theorem State.fetch_congr {s u : State} (hp : u.pc = s.pc) (hb : u.textBase = s.textBase) (ht : u.text = s.text) :
    u.fetch = s.fetch := by
  rw [State.fetch, State.fetch, State.textLimit, State.textLimit, hp, hb, ht]

theorem exec_next_pc {i : Instr} {s t : State} (h : exec i s = .next t) : t.pc = s.pc + ilen i := by
  obtain ⟨-, -, -, -, -, -, hp, rfl⟩ := exec_next h
  exact State.withPc_pc _ (by simpa using hp)

theorem exec_next_text {i : Instr} {s t : State} (h : exec i s = .next t) :
    t.textBase = s.textBase ∧ t.text = s.text := by
  obtain ⟨-, -, -, -, -, -, -, rfl⟩ := exec_next h
  simp

/-- Settles O13: a next state has the old text and the program counter of R99, so it fetches there; an admitted
encoding that does not fault comes to completion, which is refused only past the top. -/
theorem completionAdvancesPc : Obligations.CompletionAdvancesPc := by
  refine ⟨fun i s t h => ?_, fun i s hw hp hf => ?_⟩
  · obtain ⟨-, -, -, -, -, -, hp, -⟩ := exec_next h
    obtain ⟨hb, ht⟩ := exec_next_text h
    exact ⟨exec_next_pc h, State.fetch_congr ((exec_next_pc h).trans (s.withPc_pc hp).symm) hb ht⟩
  · obtain ⟨f, e⟩ | e := exec_fault_or_advance hw
    · exact absurd e (hf f)
    · exact ⟨_, e.trans (State.advance_next.mpr ⟨by simpa using hp, rfl⟩)⟩

/-! ## The selected lane (R92 to R94) -/

theorem extractByte_eq_lane (src : XmmWord) (imm : Byte) :
    extractByte src imm = src.extractLsb' (8 * (imm.extractLsb' 0 4).toNat) 8 := by
  rw [extractByte_eq, BitVec.extractLsb'_toNat]
  rfl

theorem extractDword_eq_lane (src : XmmWord) (imm : Byte) :
    extractDword src imm = src.extractLsb' (32 * (imm.extractLsb' 0 2).toNat) 32 := by
  rw [extractDword_eq, BitVec.extractLsb'_toNat]
  rfl

theorem extractQword_eq_lane (src : XmmWord) (imm : Byte) :
    extractQword src imm = src.extractLsb' (64 * (imm.extractLsb' 0 1).toNat) 64 := by
  rw [extractQword_eq, BitVec.extractLsb'_toNat]
  rfl

/-- Settles O1: the lane is a function of the select, and the model's low byte is the rule's. -/
theorem byteExtractSelectsLane : Obligations.ByteExtractSelectsLane := by
  intro src imm
  refine ⟨BitVec.setWidth_eq_extractLsb' (by decide), extractByte_eq_lane src imm, fun imm' h => ?_⟩
  rw [extractByte_eq_lane, extractByte_eq_lane, h]

/-- Settles O2: as for the byte, with a select of two bits. -/
theorem dwordExtractSelectsLane : Obligations.DwordExtractSelectsLane := by
  intro src imm
  refine ⟨BitVec.setWidth_eq_extractLsb' (by decide), extractDword_eq_lane src imm, fun imm' h => ?_⟩
  rw [extractDword_eq_lane, extractDword_eq_lane, h]

/-- The high qword shifted down leaves no bit above the low 64. -/
theorem ushiftRight_64_eq_setWidth (src : XmmWord) : src >>> 64 = ((src >>> 64).setWidth 64).setWidth 128 := by
  apply BitVec.eq_of_toNat_eq
  simp only [BitVec.toNat_setWidth, BitVec.toNat_ushiftRight, Nat.shiftRight_eq_div_pow]
  omega

/-- Settles O3: as for the byte, with a select of one bit; the shift by 64 leaves the high qword alone. -/
theorem qwordExtractSelectsLane : Obligations.QwordExtractSelectsLane := by
  intro src imm
  refine ⟨BitVec.setWidth_eq_extractLsb' (by decide), extractQword_eq_lane src imm, fun imm' h => ?_, fun h => ?_⟩
  · rw [extractQword_eq_lane, extractQword_eq_lane, h]
  · rw [extractQword, h]
    exact ushiftRight_64_eq_setWidth src

end Sys2Proof.Machine
end

section
/-! PROOFS. What the W bit of a prefix decides: the row and nothing else (R70). From it the statement of
41_vpextr_vex.md that VEX.W is ignored in 32-bit mode, and by VPEXTRB in either mode (R114). -/

namespace Sys2Proof

/-! ## The W bit of a prefix (R53, R55, R56) -/

/-- The prefix part with the W bit set to `w`, where it has one. -/
def Lead.withW (w : Bool) : Lead → Lead
  | .legacy rex => .legacy (rex.map fun r => { r with w := w })
  | .vex p => .vex { p with w := w }
  | .evex p => .evex { p with w := w }

/-- Flipping bit 7 of the payload byte that holds W, vvvv and the implied prefix flips W and keeps the rest. -/
theorem payload_flipW (b : Byte) :
    (b ^^^ 0x80#8).getLsbD 7 = (!b.getLsbD 7) ∧ (b ^^^ 0x80#8).extractLsb' 3 4 = b.extractLsb' 3 4 ∧
      (b ^^^ 0x80#8).getLsbD 2 = b.getLsbD 2 ∧ (b ^^^ 0x80#8).extractLsb' 0 2 = b.extractLsb' 0 2 := by
  revert b; decide

theorem vexOf_flipW (b1 b2 : Byte) :
    vexOf b1 (b2 ^^^ 0x80#8) = { vexOf b1 b2 with w := !b2.getLsbD 7 } := by
  obtain ⟨hw, hv, hl, -⟩ := payload_flipW b2
  simp only [vexOf, hw, hv, hl]

end Sys2Proof

namespace Sys2Proof.Machine

/-! ## The W bit outside the choice of the row (R70) -/

/-- W enters neither a gate, nor an operand, nor the length: two instructions of one element width that differ in W
alone do the same, if the mode admits both or neither. -/
theorem exec_eq_of_lead_withW {i j : Instr} {s : State} {w : Bool} (hl : j.lead = i.lead.withW w)
    (ha : j.args = i.args) (hb : j.bytes = i.bytes) (hwf : WellFormed s.mode j = WellFormed s.mode i) :
    exec j s = exec i s := by
  simp only [exec_eq, State.guardEncodable, hwf, featurePresent, destOf, sourceOf, ilen, hl, ha, hb]
  cases i.lead with
  | legacy rex => cases rex <;> rfl
  | vex p => rfl
  | evex p => rfl

/-! ## The VEX class (R114) -/

theorem OpcodeAndArgs.opcode_eq {op op' : Byte} {bs rest : List Byte} {a : Args}
    (h : OpcodeAndArgs (op :: bs) op' a rest) : op' = op := by
  obtain ⟨-, tl, htl, -⟩ := h
  exact (List.cons.inj htl).1.symm

theorem VexPayload.flipW {m : Mode} {b1 b2 : Byte} (h : VexPayload m b1 b2) :
    VexPayload m b1 (b2 ^^^ 0x80#8) := by
  obtain ⟨-, -, -, hpp⟩ := payload_flipW b2
  exact ⟨h.map, hpp.trans h.pp, h.ext⟩

/-- In 32-bit mode, and for opcode 14 in either mode, the opcode byte alone selects the VEX row. -/
theorem vexRow_of_w_ignored {m : Mode} {op : Byte} (h : m = .mode32 ∨ op = 0x14#8) (p : Vex) (a : Args) :
    vexRow m p op a = if op = 0x14#8 then .vpextrbVex p a else .vpextrdVex p a := by
  rcases h with rfl | rfl
  · simp [vexRow]
  · rfl

/-- Settles O42: the other W bit leaves the row, by the opcode byte and the mode, and with it the meaning. -/
theorem vexWIgnored : Obligations.VexWIgnored := by
  intro m b1 b2 op bs hm i rest h
  obtain ⟨hf, op', a, ht, rfl⟩ := decode_vex_ok_iff.mp h
  obtain rfl := ht.opcode_eq
  have hb : (vexRow m (vexOf b1 (b2 ^^^ 0x80#8)) op' a).bytes = (vexRow m (vexOf b1 b2) op' a).bytes := by
    rw [vexRow_of_w_ignored hm, vexRow_of_w_ignored hm]
    split_ifs <;> rfl
  refine ⟨fun h16 => ?_, fun h14 => ?_, vexRow m (vexOf b1 (b2 ^^^ 0x80#8)) op' a,
    decode_vex_ok_iff.mpr ⟨hf.flipW, op', a, ht, rfl⟩, hb, by simp, fun s hs => ?_⟩
  · subst h16
    rw [vexRow_of_w_ignored hm]
    exact ⟨rfl, rfl⟩
  · subst h14
    rw [vexRow_of_w_ignored hm]
    exact ⟨rfl, rfl⟩
  · subst hs
    have hl : (vexRow s.mode (vexOf b1 (b2 ^^^ 0x80#8)) op' a).lead =
        (vexRow s.mode (vexOf b1 b2) op' a).lead.withW (!b2.getLsbD 7) := by
      simp only [vexRow_lead, vexOf_flipW, Lead.withW]
    refine exec_eq_of_lead_withW hl (by simp) hb ?_
    rw [wellFormed_vexRow op' hf.flipW.wf ht.args_wf, wellFormed_vexRow op' hf.wf ht.args_wf]

end Sys2Proof.Machine
end

section
/-! PROOFS. The two reserved-field checks of the gate on an admitted encoding (60_exceptions.md R141, R142): each
alone is enough for #UD, whatever the enable, the feature flag and the other field are. -/

namespace Sys2Proof.Machine

/-- The vector-length field alone: where it is not 0, nothing later in the order of R149 is reached. -/
theorem exec_eq_ud_of_lengthOk_eq_false {i : Instr} {s : State} (hw : WellFormed s.mode i = true)
    (h : lengthOk i.lead = false) : exec i s = .fault (.ud s.pc) :=
  exec_eq_ud hw (.inr (.inr (Bool.and_eq_false_iff.mpr (.inl h))))

/-- The vvvv field alone: where it is not 1111b, nothing later in the order of R149 is reached. -/
theorem exec_eq_ud_of_vvvvOk_eq_false {i : Instr} {s : State} (hw : WellFormed s.mode i = true)
    (h : vvvvOk i.lead = false) : exec i s = .fault (.ud s.pc) :=
  exec_eq_ud hw (.inr (.inr (Bool.and_eq_false_iff.mpr (.inr h))))

/-- Settles O21: L = 1, or L'L above 0, fails the length check of the gate. -/
theorem vectorLengthRaisesUd : Obligations.VectorLengthRaisesUd := by
  intro i s hw
  refine ⟨fun p hlead hl => exec_eq_ud_of_lengthOk_eq_false hw ?_,
    fun p hlead hll => exec_eq_ud_of_lengthOk_eq_false hw ?_⟩
  · simp [hlead, lengthOk, hl]
  · have hne : p.ll ≠ 0#2 := by
      intro h
      simp [h] at hll
    simp [hlead, lengthOk, hne]

/-- Settles O22: a stored vvvv other than 1111b fails the vvvv check of the gate, in either prefix class. -/
theorem unusedRegisterFieldRaisesUd : Obligations.UnusedRegisterFieldRaisesUd := by
  intro i s hw
  refine ⟨fun p hlead hv => exec_eq_ud_of_vvvvOk_eq_false hw ?_,
    fun p hlead hv => exec_eq_ud_of_vvvvOk_eq_false hw ?_⟩
  · simpa [hlead, vvvvOk] using hv
  · simpa [hlead, vvvvOk] using hv

end Sys2Proof.Machine
end

section
/-! PROOFS. The decoder and the encoder are inverse to each other on the admitted encodings of a mode
(30_encoding.md sections 1 to 3): for each class the byte strings accepted and the row they select, and from them
the two round trips and the length. -/

namespace Sys2Proof.Machine

/-! ## The legacy class (R52 to R54, R65) -/

@[simp] theorem legacyRow_lead (rex : Option Rex) (op : Byte) (a : Args) :
    (legacyRow rex op a).lead = .legacy rex := by
  cases rex <;> simp only [legacyRow] <;> split_ifs <;> rfl

@[simp] theorem legacyRow_args (rex : Option Rex) (op : Byte) (a : Args) : (legacyRow rex op a).args = a := by
  cases rex <;> simp only [legacyRow] <;> split_ifs <;> rfl

theorem legacyRow_bytes (rex : Option Rex) (op : Byte) (a : Args) :
    (legacyRow rex op a).bytes = if op = 0x14#8 then 1 else if rex.any (·.w) = true then 8 else 4 := by
  cases rex with
  | none => simp only [legacyRow, Option.any_none, Bool.false_eq_true, if_false]; split_ifs <;> rfl
  | some r => simp only [legacyRow, Option.any_some]; split_ifs <;> rfl

theorem wellFormed_legacyRow {m : Mode} {rex : Option Rex} {a : Args} (op : Byte) (hp : rexWf m rex = true)
    (ha : a.wf = true) : WellFormed m (legacyRow rex op a) = true := by
  cases rex with
  | none => simp only [legacyRow]; split_ifs <;> simp [WellFormed, ha, rexWf]
  | some r =>
    have hm : m = .mode64 := by simpa [rexWf] using hp
    simp only [legacyRow]
    split_ifs with h14 hw
    · simp [WellFormed, hp, ha]
    · simp [WellFormed, hm, ha, hw]
    · simp [WellFormed, hp, ha, hw]

/-- The byte strings accepted after `0F 3A`, and what the decoder makes of them. -/
theorem decodeEscape_ok_iff {m : Mode} {rex : Option Rex} {bs rest : List Byte} {i : Instr} :
    decodeEscape m rex (0x0F#8 :: 0x3A#8 :: bs) = .ok (i, rest) ↔
      ∃ op a, OpcodeAndArgs bs op a rest ∧ i = legacyRow rex op a := by
  constructor
  · intro h
    obtain ⟨op, a, tl, hop, hbs, ha, hi⟩ := decodeEscape_ok h
    simp only [List.cons.injEq, true_and] at hbs
    exact ⟨op, a, ⟨hop, tl, hbs, ha⟩, hi⟩
  · rintro ⟨op, a, ⟨hop, tl, rfl, ha⟩, rfl⟩
    have hop' : ¬ (op ≠ 0x14#8 ∧ op ≠ 0x16#8) := by tauto
    simp only [decodeEscape, hop', ha, ne_eq, not_true_eq_false, if_false]

/-- Without a REX byte the escape follows 66 at once. -/
theorem decode_legacy_none (m : Mode) (bs : List Byte) :
    decode m (0x66#8 :: 0x0F#8 :: bs) = decodeEscape m none (0x0F#8 :: bs) := by
  cases m <;> rfl

theorem decode_legacy_rex {rex : Byte} (h : rex.extractLsb' 4 4 = 4#4) (bs : List Byte) :
    decode .mode64 (0x66#8 :: rex :: bs) = decodeEscape .mode64 (some (rexOf rex)) bs := by
  have hr : isRex .mode64 rex = true := by simp [isRex, h]
  change decodeLegacy .mode64 (rex :: bs) = _
  rw [decodeLegacy, if_pos hr]

/-- The bytes of an admitted legacy prefix part lead to the bytes after the escape. -/
theorem decode_legacy_encode {m : Mode} {rex : Option Rex} (h : rexWf m rex = true) (bs : List Byte) :
    decode m ((Lead.legacy rex).encode ++ bs) = decodeEscape m rex (0x0F#8 :: 0x3A#8 :: bs) := by
  cases rex with
  | none => exact decode_legacy_none m (0x3A#8 :: bs)
  | some r =>
    obtain rfl : m = .mode64 := by simpa [rexWf] using h
    obtain ⟨hr, h4⟩ := rexOf_encode r
    have e := decode_legacy_rex h4 (0x0F#8 :: 0x3A#8 :: bs)
    rwa [hr] at e

/-! ## The opcode byte of each row (R65) -/

/-- A row whose element is one byte wide exactly for opcode 14 is written with the opcode byte that selected it. -/
theorem opcode_eq_of_bytes {i : Instr} {op : Byte} (hop : op = 0x14#8 ∨ op = 0x16#8) {n : Nat} (hn : n ≠ 1)
    (h : i.bytes = if op = 0x14#8 then 1 else n) : i.opcode = op := by
  rcases hop with rfl | rfl
  · simp [Instr.opcode, h]
  · simp [Instr.opcode, h, hn]

theorem legacyRow_opcode {op : Byte} (hop : op = 0x14#8 ∨ op = 0x16#8) (rex : Option Rex) (a : Args) :
    (legacyRow rex op a).opcode = op :=
  opcode_eq_of_bytes hop (by split_ifs <;> decide) (legacyRow_bytes rex op a)

theorem vexRow_opcode {op : Byte} (hop : op = 0x14#8 ∨ op = 0x16#8) (m : Mode) (p : Vex) (a : Args) :
    (vexRow m p op a).opcode = op :=
  opcode_eq_of_bytes hop (by split_ifs <;> decide) (vexRow_bytes m p op a)

theorem evexRow_opcode {op : Byte} (hop : op = 0x14#8 ∨ op = 0x16#8) (m : Mode) (p : Evex) (a : Args) :
    (evexRow m p op a).opcode = op :=
  opcode_eq_of_bytes hop (by split_ifs <;> decide) (evexRow_bytes m p op a)

theorem instr_opcode_cases (i : Instr) : i.opcode = 0x14#8 ∨ i.opcode = 0x16#8 := by
  unfold Instr.opcode; split_ifs <;> simp

/-! ## What the decoder accepts (R74) -/

/-- The first byte of an accepted byte string names the class. -/
theorem decode_ok_first {m : Mode} {bs rest : List Byte} {i : Instr} (h : decode m bs = .ok (i, rest)) :
    (∃ tl, bs = 0x66#8 :: tl ∧ decodeLegacy m tl = .ok (i, rest)) ∨ (∃ tl, bs = 0xC4#8 :: tl) ∨
      ∃ tl, bs = 0x62#8 :: tl := by
  unfold decode at h
  split at h
  · simp at h
  · split_ifs at h with h66 hC4 h62
    · exact .inl ⟨_, by rw [h66], h⟩
    · exact .inr (.inl ⟨_, by rw [hC4]⟩)
    · exact .inr (.inr ⟨_, by rw [h62]⟩)

/-- What the decoder accepts is the prefix part and the opcode byte of an admitted encoding, and operand bytes. -/
theorem decode_ok {m : Mode} {bs rest : List Byte} {i : Instr} (h : decode m bs = .ok (i, rest)) :
    WellFormed m i = true ∧ ∃ tl, bs = i.lead.encode ++ i.opcode :: tl ∧ takeArgs tl = .ok (i.args, rest) := by
  obtain ⟨tl, rfl, hl⟩ | ⟨tl, rfl⟩ | ⟨tl, rfl⟩ := decode_ok_first h
  · obtain ⟨rex, op, a, tl, hop, hbs, hrex, ha, rfl⟩ := decodeLegacy_ok hl
    refine ⟨wellFormed_legacyRow op hrex (encode_of_takeArgs ha).1, tl, ?_, by simpa using ha⟩
    rw [legacyRow_lead, legacyRow_opcode hop, hbs]
  · obtain ⟨b1, b2, op, a, tl, hop, rfl, hext, hmap, hpp, ha, rfl⟩ := decodeVex_ok h
    have hp : VexPayload m b1 b2 := ⟨hmap, hpp, hext⟩
    refine ⟨wellFormed_vexRow op hp.wf (encode_of_takeArgs ha).1, tl, ?_, by simpa using ha⟩
    rw [vexRow_lead, vexRow_opcode hop, Lead.encode, encode_vexOf b1 b2 hmap hpp]
    rfl
  · obtain ⟨p0, p1, p2, op, a, tl, hop, rfl, hext, hmap, hpp, h03, h12, hz, hlow, ha, hn, rfl⟩ := decodeEvex_ok h
    have hp : EvexPayload m p0 p1 p2 := ⟨hmap, hpp, h03, h12, hz, hlow, hext⟩
    refine ⟨wellFormed_evexRow hop (hp.wf hn) (encode_of_takeArgs ha).1 hn, tl, ?_, by simpa using ha⟩
    rw [evexRow_lead, evexRow_opcode hop, Lead.encode, encode_evexOf p0 p1 p2 hmap h03 hpp h12 hz hlow]
    rfl

/-- Settles O38: the prefix part and the opcode byte are those of the instruction, and so are the operand bytes. -/
theorem encodeOfDecode : Obligations.EncodeOfDecode := by
  intro m bs i rest h
  obtain ⟨hw, tl, rfl, ha⟩ := decode_ok h
  obtain ⟨-, htl⟩ := encode_of_takeArgs ha
  exact ⟨hw, by rw [encode, List.append_assoc, List.cons_append, htl]⟩

/-! ## Decoding an encoding (R52, R55, R56) -/

theorem args_wf_of_wellFormed {m : Mode} {i : Instr} (h : WellFormed m i = true) : i.args.wf = true := by
  cases i <;> simp only [WellFormed, Bool.and_eq_true] at h <;> tauto

/-- The opcode byte and the operand bytes an instruction is written with are read back. -/
theorem opcodeAndArgs_encode {m : Mode} {i : Instr} (h : WellFormed m i = true) (rest : List Byte) :
    OpcodeAndArgs (i.opcode :: i.args.encode ++ rest) i.opcode i.args rest :=
  ⟨instr_opcode_cases i, _, rfl, takeArgs_encode i.args (args_wf_of_wellFormed h) rest⟩

theorem legacyRow_of_wellFormed {m : Mode} {i : Instr} {rex : Option Rex} (h : WellFormed m i = true)
    (hl : i.lead = .legacy rex) : rexWf m rex = true ∧ i = legacyRow rex i.opcode i.args := by
  cases i <;> simp only [Instr.lead, Lead.legacy.injEq, reduceCtorEq] at hl <;> subst hl
  case pextrb a => exact ⟨by simp_all [WellFormed], rfl⟩
  case pextrd rex a =>
    cases rex <;> simp_all [WellFormed, legacyRow, Instr.opcode, Instr.bytes, Instr.args]
  case pextrq r a => simp_all [WellFormed, rexWf, legacyRow, Instr.opcode, Instr.bytes, Instr.args]

theorem vexRow_of_wellFormed {m : Mode} {i : Instr} {p : Vex} (h : WellFormed m i = true)
    (hl : i.lead = .vex p) : p.wf m = true ∧ i = vexRow m p i.opcode i.args := by
  cases i <;> simp only [Instr.lead, Lead.vex.injEq, reduceCtorEq] at hl <;> subst hl
  case vpextrbVex a => exact ⟨by simp_all [WellFormed], rfl⟩
  case vpextrdVex a => simp_all [WellFormed, Vex.wf, vexRow, imp_iff_not_or, Instr.opcode, Instr.bytes, Instr.args]
  case vpextrqVex a => simp_all [WellFormed, Vex.wf, vexRow, Instr.opcode, Instr.bytes, Instr.args]

theorem evexRow_of_wellFormed {m : Mode} {i : Instr} {p : Evex} (h : WellFormed m i = true)
    (hl : i.lead = .evex p) : p.wf m i.args = true ∧ evexArgsReject m p i.opcode i.args = none ∧
      i = evexRow m p i.opcode i.args := by
  rw [evexArgsReject_eq_none]
  cases i <;> simp only [Instr.lead, Lead.evex.injEq, reduceCtorEq] at hl <;> subst hl
  case vpextrbEvex a => simp_all [WellFormed, Evex.wf, evexRow, imp_iff_not_or, Instr.opcode, Instr.bytes, Instr.args]
  case vpextrdEvex a =>
    simp_all [WellFormed, Evex.wf, evexRow, imp_iff_not_or, or_assoc, Instr.opcode, Instr.bytes, Instr.args]
  case vpextrqEvex a => simp_all [WellFormed, Evex.wf, evexRow, imp_iff_not_or, Instr.opcode, Instr.bytes, Instr.args]

/-- Settles O37: each class reads its prefix part, and then the opcode byte and the operand bytes, as written. -/
theorem decodeOfEncode : Obligations.DecodeOfEncode := by
  intro m i rest hw
  have ht := opcodeAndArgs_encode hw rest
  rw [encode, List.append_assoc]
  cases hl : i.lead with
  | legacy rex =>
    obtain ⟨hrex, hi⟩ := legacyRow_of_wellFormed hw hl
    rw [decode_legacy_encode hrex]
    exact decodeEscape_ok_iff.mpr ⟨_, _, ht, hi⟩
  | vex p =>
    obtain ⟨hp, hi⟩ := vexRow_of_wellFormed hw hl
    obtain ⟨b1, b2, he, rfl, hmap, hpp, hext⟩ := vexOf_encode p
    rw [Lead.encode, he]
    exact decode_vex_ok_iff.mpr ⟨⟨hmap, hpp, fun hm => hext (hm ▸ hp)⟩, _, _, ht, hi⟩
  | evex p =>
    obtain ⟨hp, hn, hi⟩ := evexRow_of_wellFormed hw hl
    obtain ⟨p0, p1, p2, he, rfl, hmap, hpp, h03, h12, hz, hlow, hext⟩ := evexOf_encode p
    rw [Lead.encode, he]
    refine decode_evex_ok_iff.mpr ⟨⟨hmap, hpp, h03, h12, hz, hlow, fun hm => hext ?_⟩, _, _, ht, hn, hi⟩
    subst hm
    simp only [Evex.wf, Bool.and_eq_true] at hp
    exact hp.1

/-- Settles O55: the bytes read are the encoding, whose length is `ilen`. -/
theorem decodedLength : Obligations.DecodedLength := by
  intro m bs i rest h
  obtain ⟨-, rfl⟩ := encodeOfDecode m bs i rest h
  obtain ⟨hlen, h6, h12⟩ := Sys2Proof.Laws.EncodedLength.all i
  exact ⟨by rw [List.length_append, hlen], h6, h12⟩

end Sys2Proof.Machine
end

section
/-! PROOFS. One step of the machine (R172): what it runs, what every step keeps (R35, R40), and what no run changes
(R15, R18 to R21); and the launch state and the table words placed for it. -/

namespace Sys2Proof.Machine

/-! ## Steps of the machine (R172) -/

theorem State.fetch_of_inside {s : State} (hlo : s.textBase ≤ s.pc) (hhi : s.pc < s.textLimit) :
    s.fetch = .ok (s.text.drop (s.pc - s.textBase)) := by
  rw [State.fetch, if_neg (by omega), if_pos ⟨hlo, hhi⟩]

/-- Settles O47: inside the text the bytes fetched are those at the program counter. -/
theorem stepRunsDecodedInstruction : Obligations.StepRunsDecodedInstruction := by
  intro s i rest hlo hhi hd
  simp only [step, State.fetch_of_inside hlo hhi, hd]

/-- Settles O48: the three places of the program counter are the three branches of the fetch. -/
theorem stepStopsWithoutInstruction : Obligations.StepStopsWithoutInstruction := by
  intro s
  refine ⟨fun hend => ?_, fun why hlo hhi hd => ?_, fun hout => ?_⟩
  · have hf : s.fetch = .error .endOfRun := by rw [State.fetch, if_pos hend]
    simp only [step, hf]
  · simp only [step, State.fetch_of_inside hlo hhi, hd]
  · have hbase : s.textBase ≤ s.textLimit := Nat.le_add_right ..
    have hf : s.fetch = .error .outsideText := by rw [State.fetch, if_neg (by omega), if_neg (by omega)]
    simp only [step, hf]

/-- A step that answers a next state ran an instruction that the bytes at the program counter decode to. -/
theorem step_next {s t : State} (h : step s = .next t) :
    s.textBase ≤ s.pc ∧ s.pc < s.textLimit ∧ ∃ i rest,
      decode s.mode (s.text.drop (s.pc - s.textBase)) = .ok (i, rest) ∧ exec i s = .next t := by
  obtain ⟨hend, hbad, hout⟩ := stepStopsWithoutInstruction s
  have hne : s.pc ≠ s.textLimit := fun e => by simp [hend e] at h
  have hin : ¬ (s.pc < s.textBase ∨ s.textLimit < s.pc) := fun e => by simp [hout e] at h
  refine ⟨by omega, by omega, ?_⟩
  cases hd : decode s.mode (s.text.drop (s.pc - s.textBase)) with
  | error why => simp [hbad why (by omega) (by omega) hd] at h
  | ok r => exact ⟨r.1, r.2, rfl, (stepRunsDecodedInstruction s r.1 r.2 (by omega) (by omega) hd).symm.trans h⟩

/-- The instruction decoded ends inside the program text. -/
theorem pc_add_ilen_le {s : State} {i : Instr} {rest : List Byte} (hlo : s.textBase ≤ s.pc)
    (hhi : s.pc < s.textLimit) (h : decode s.mode (s.text.drop (s.pc - s.textBase)) = .ok (i, rest)) :
    s.pc + ilen i ≤ s.textLimit := by
  obtain ⟨hlen, -, -⟩ := decodedLength _ _ _ _ h
  rw [List.length_drop] at hlen
  unfold State.textLimit at *
  omega

/-! ## Memory faults (R33, R35, R147) -/

theorem State.memoryFault_eq_none_iff {s : State} {addr n : Nat} :
    s.memoryFault addr n = none ↔ ¬ (s.cfg.alignCheck = true ∧ addr % n ≠ 0) ∧
      Denial.lookup s.cfg.denials addr n = none ∧ addr + n ≤ 2 ^ s.mode.bits := by
  rw [State.memoryFault]
  by_cases ha : s.cfg.alignCheck = true ∧ addr % n ≠ 0
  · simp [ha]
  · cases hl : Denial.lookup s.cfg.denials addr n with
    | some kind => simp [ha]
    | none => simp [ha]

theorem State.blocked_mem_eq_none_iff {s : State} {ea n : Nat} :
    s.blocked (.mem ea) n = none ↔ s.memoryFault ea n = none ∧ s.overlapsText ea n = false := by
  rw [State.blocked]
  cases hf : s.memoryFault ea n <;> simp

/-! ## The invariant (R35, R40, R172) -/

@[simp] theorem State.written_reg_mem (s : State) (d : BitVec 4) (n : Nat) (t : BitVec 64) :
    (s.written (.reg d) n t).mem = s.mem := rfl

@[simp] theorem State.written_mem_mem (s : State) (ea n : Nat) (t : BitVec 64) :
    (s.written (.mem ea) n t).mem = s.mem.writeBytes ea t n := rfl

@[simp] theorem State.written_textLimit (s : State) (d : Dest) (n : Nat) (t : BitVec 64) :
    (s.written d n t).textLimit = s.textLimit := by
  simp [State.textLimit]

/-- A write that nothing blocks, with the program counter moved inside the text, keeps the invariant. -/
theorem State.Inv.written_withPc {s : State} (h : s.Inv) {d : Dest} {n : Nat} (t : BitVec 64) {pc : Nat}
    (hb : s.blocked d n = none) (hpc : pc < 2 ^ s.mode.bits) (hlo : s.textBase ≤ pc) (hhi : pc ≤ s.textLimit) :
    ((s.written d n t).withPc pc).Inv := by
  have hpc' : ((s.written d n t).withPc pc).pc = pc := State.withPc_pc _ (by simpa using hpc)
  have hlim : ((s.written d n t).withPc pc).textLimit = s.textLimit := s.written_textLimit d n t
  have hin : ((s.written d n t).withPc pc).textBase ≤ ((s.written d n t).withPc pc).pc ∧
      ((s.written d n t).withPc pc).pc ≤ ((s.written d n t).withPc pc).textLimit := by
    rw [hpc', hlim]
    simpa using ⟨hlo, hhi⟩
  have hfit : ((s.written d n t).withPc pc).textLimit ≤ 2 ^ ((s.written d n t).withPc pc).mode.bits := by
    rw [hlim]
    simpa using h.textFits
  cases d with
  | reg r => exact ⟨h.sorted, by simpa using h.inSpace, h.noShadow, hfit, hin⟩
  | mem ea =>
    obtain ⟨hf, ho⟩ := State.blocked_mem_eq_none_iff.mp hb
    obtain ⟨-, -, htop⟩ := State.memoryFault_eq_none_iff.mp hf
    refine ⟨Memory.wf_writeBytes _ _ _ _ h.sorted, ?_, fun a hlo' hhi' => ?_, hfit, hin⟩
    · simpa using Memory.below_writeBytes s.mem ea _ t n h.inSpace htop
    · have hout : ¬ (ea ≤ a ∧ a < ea + n) := fun ⟨h1, h2⟩ => by
        have : s.overlapsText ea n = true := (State.overlapsText_iff (by omega)).mpr ⟨a, h1, h2, hlo', hhi'⟩
        simp [ho] at this
      have hr := Memory.read_writeBytes s.mem ea a t n
      rw [if_neg hout] at hr
      exact hr.trans (h.noShadow a hlo' hhi')

/-- Settles O52: the step wrote what nothing blocked and moved to the end of the instruction, inside the text. -/
theorem stepKeepsInv : Obligations.StepKeepsInv := by
  intro s t hs h
  obtain ⟨hlo, hhi, i, rest, hd, he⟩ := step_next h
  obtain ⟨-, -, -, -, -, hb, hp, rfl⟩ := exec_next he
  exact hs.written_withPc _ hb hp (by omega) (pc_add_ilen_le hlo hhi hd)

/-! ## What no run changes (R15, R18 to R21, R40) -/

theorem SameSystem.refl (s : State) : SameSystem s s := by
  constructor <;> rfl

theorem SameSystem.trans {s t u : State} (h : SameSystem s t) (h' : SameSystem t u) : SameSystem s u where
  mode := h'.mode.trans h.mode
  zmm := h'.zmm.trans h.zmm
  flags := h'.flags.trans h.flags
  mxcsr := h'.mxcsr.trans h.mxcsr
  textBase := h'.textBase.trans h.textBase
  text := h'.text.trans h.text
  cfg := h'.cfg.trans h.cfg

theorem SameSystem.written_withPc (s : State) (d : Dest) (n : Nat) (t : BitVec 64) (pc : Nat) :
    SameSystem s ((s.written d n t).withPc pc) := by
  constructor <;> simp

theorem exec_next_sameSystem {i : Instr} {s t : State} (h : exec i s = .next t) : SameSystem s t := by
  obtain ⟨-, -, -, -, -, -, -, rfl⟩ := exec_next h
  exact SameSystem.written_withPc ..

theorem step_next_sameSystem {s t : State} (h : step s = .next t) : SameSystem s t := by
  obtain ⟨-, -, i, rest, -, he⟩ := step_next h
  exact exec_next_sameSystem he

/-- Settles O53: by induction on the run, each step being one instruction. -/
theorem noRunChangesSystemState : Obligations.NoRunChangesSystemState := by
  refine ⟨fun s t h => step_next_sameSystem h, fun s t h => ?_⟩
  induction h with
  | refl => exact SameSystem.refl s
  | step _ hstep ih => exact ih.trans (step_next_sameSystem hstep)

theorem State.byte_of_text {s : State} {a : Nat} (hlo : s.textBase ≤ a) (hhi : a < s.textLimit) :
    s.byte a = s.text[a - s.textBase]? := by
  rw [State.byte, if_pos ⟨hlo, hhi⟩]

/-- Settles O54: an address of the text reads as the text, which no run changes or moves. -/
theorem programTextIsFixed : Obligations.ProgramTextIsFixed := by
  intro s t h a hlo hhi
  obtain ⟨-, hrun⟩ := noRunChangesSystemState
  have hs := hrun s t h
  have hlim : t.textLimit = s.textLimit := by rw [State.textLimit, State.textLimit, hs.textBase, hs.text]
  have ht := State.byte_of_text (s := t) (hs.textBase ▸ hlo) (hlim ▸ hhi)
  rw [hs.text, hs.textBase] at ht
  exact ⟨ht.trans (State.byte_of_text hlo hhi).symm, State.byte_of_text hlo hhi⟩

/-! ## The launch state and placed words (R24, R170, R171; notes/assumptions/1.md to 5.md) -/

theorem State.reset_gpr (i : BitVec 4) : State.reset.gpr i = 0 := by
  have hi : i.toNat < 16 := i.isLt
  simp [State.reset, State.gpr, hi]

theorem State.reset_xmm (j : BitVec 5) : State.reset.xmm j = 0 := by
  have hj : j.toNat < 32 := j.isLt
  simp [State.reset, State.xmm, hj]

/-- With no text and no memory no byte has a value. -/
theorem State.reset_byte (a : Nat) : State.reset.byte a = none := by
  have hout : ¬ (State.reset.textBase ≤ a ∧ a < State.reset.textLimit) := by
    simp [State.textLimit, State.reset]
  rw [State.byte, if_neg hout]
  rfl

/-- Settles O50: every register of a replicated file holds the one value, and the rest is read off. -/
theorem resetStateValues : Obligations.ResetStateValues :=
  ⟨rfl, rfl, State.reset_gpr, State.reset_xmm, rfl, rfl, State.reset_byte, rfl, rfl⟩

/-- Settles O51: memory and the text are empty, and the program counter stands at the end of the text. -/
theorem resetMeetsInv : Obligations.ResetMeetsInv where
  sorted := State.reset_mem_wf
  inSpace := rfl
  noShadow _ _ _ := rfl
  textFits := by decide
  pcInText := by decide

theorem decode_nil (m : Mode) : decode m [] = .error .textEnds := rfl

/-- Settles O49: the placed text begins at the program counter and is not empty, for no instruction is. -/
theorem placedTableWordRuns : Obligations.PlacedTableWordRuns := by
  intro s nbits w i hm hi
  unfold decodeTableWord at hi
  cases hd : decode .mode64 (tableBytes nbits w) with
  | error why => simp [hd] at hi
  | ok r =>
    obtain ⟨j, rest⟩ := r
    obtain rfl : j = i := by simpa [hd] using hi
    have hne : tableBytes nbits w ≠ [] := fun e => by simp [e, decode_nil] at hd
    refine stepRunsDecodedInstruction _ j rest (Nat.le_refl s.pc) ?_ ?_
    · exact Nat.lt_add_of_pos_right (List.length_pos_iff.mpr hne)
    · change decode s.mode ((tableBytes nbits w).drop (s.pc - s.pc)) = _
      rw [Nat.sub_self, List.drop_zero, hm, hd]

end Sys2Proof.Machine
end

section
/-! PROOFS. The destination write (R91) with what it leaves unchanged, and from it the results of the nine
instructions in register and memory form (40_pextr_legacy.md to 42_vpextr_evex.md). -/

namespace Sys2Proof.Machine

/-! ## The destination write (R91) -/

/-- A register that the mode has, given a value that fits its width, holds that value (R11, R12). -/
theorem State.withGpr_gpr_same {s : State} {d : BitVec 4} {v : BitVec 64}
    (h : s.mode = .mode64 ∨ d.toNat < 8 ∧ v.toNat < 2 ^ 32) : (s.withGpr d v).gpr d = v := by
  cases hm : s.mode with
  | mode64 => exact s.withGpr_gpr_mode64 d v hm
  | mode32 =>
    obtain ⟨hd, hv⟩ : d.toNat < 8 ∧ v.toNat < 2 ^ 32 := by simpa [hm] using h
    rw [s.withGpr_gpr_mode32 d v hm hd]
    apply BitVec.eq_of_toNat_eq
    simp only [BitVec.toNat_setWidth]
    omega

theorem State.writeDest_of_not_blocked {s : State} {d : Dest} {n : Nat} (t : BitVec 64) {len : Nat}
    (hb : s.blocked d n = none) (hp : s.pc + len < 2 ^ s.mode.bits) :
    s.writeDest d n t len = .next ((s.written d n t).withPc (s.pc + len)) := by
  rw [State.writeDest_eq, hb]
  exact State.advance_next.mpr ⟨by simpa using hp, by rw [State.written_pc]⟩

theorem State.written_withPc_pc {s : State} {len : Nat} (hp : s.pc + len < 2 ^ s.mode.bits) (d : Dest) (n : Nat)
    (t : BitVec 64) : ((s.written d n t).withPc (s.pc + len)).pc = s.pc + len :=
  State.withPc_pc _ (by simpa using hp)

/-- The register arm of `WriteDest`, and what it leaves unchanged. -/
theorem State.writeDest_reg_next {s : State} {d : BitVec 4} (n : Nat) {t : BitVec 64} {len : Nat}
    (hd : s.mode = .mode64 ∨ d.toNat < 8 ∧ t.toNat < 2 ^ 32) (hp : s.pc + len < 2 ^ s.mode.bits) :
    ∃ u, s.writeDest (.reg d) n t len = .next u ∧ u.gpr d = t ∧ (∀ j, j ≠ d → u.gpr j = s.gpr j) ∧
      u.mem = s.mem ∧ SameSystem s u ∧ u.pc = s.pc + len := by
  refine ⟨_, State.writeDest_of_not_blocked t rfl hp, ?_, fun j hj => ?_, rfl, SameSystem.written_withPc ..,
    State.written_withPc_pc hp ..⟩
  · rw [State.withPc_gpr]
    exact State.withGpr_gpr_same hd
  · rw [State.withPc_gpr]
    exact s.withGpr_gpr_ne t hj

/-- The memory arm of `WriteDest`, where nothing blocks it, and what it leaves unchanged. -/
theorem State.writeDest_mem_next {s : State} {ea n : Nat} (t : BitVec 64) {len : Nat}
    (hf : s.memoryFault ea n = none) (ho : s.overlapsText ea n = false) (hp : s.pc + len < 2 ^ s.mode.bits) :
    ∃ u, s.writeDest (.mem ea) n t len = .next u ∧
      (∀ k, k < n → u.byte (ea + k) = some (t.extractLsb' (8 * k) 8)) ∧
      (∀ a, a < ea ∨ ea + n ≤ a → u.byte a = s.byte a) ∧ (∀ j, u.gpr j = s.gpr j) ∧ SameSystem s u ∧
      u.pc = s.pc + len := by
  refine ⟨_, State.writeDest_of_not_blocked t (State.blocked_mem_eq_none_iff.mpr ⟨hf, ho⟩) hp, fun k hk => ?_,
    fun a ha => ?_, fun j => ?_, SameSystem.written_withPc .., State.written_withPc_pc hp ..⟩
  · rw [State.written_byte s ea n t _ _ ho, if_pos (by omega), Nat.add_sub_cancel_left, byteAt]
  · rw [State.written_byte s ea n t _ _ ho, if_neg (by omega)]
  · rw [State.withPc_gpr]
    rfl

/-- Settles O11: a value of at most 32 bits fits every register; a register of 64 bits holds any value. -/
theorem destinationWrite : Obligations.DestinationWrite := by
  refine ⟨fun i s => ?_, fun s n t len hn ht hp => ⟨fun d hd => ?_, fun ea hf ho => ?_⟩⟩
  · cases hrm : i.args.rm <;> simp [destOf_eq_reg_iff, hrm, Rm.isReg]
  · have hfit : s.mode = .mode64 ∨ d.toNat < 8 ∧ t.toNat < 2 ^ 32 := by
      refine hd.imp_right fun ⟨hd8, hn8⟩ => ⟨hd8, ?_⟩
      rcases hn with rfl | rfl | rfl <;> omega
    exact State.writeDest_reg_next n hfit hp
  · exact State.writeDest_mem_next t hf ho hp

/-! ## Where an instruction completes (R149) -/

theorem Unblocked.reserved {i : Instr} {s : State} (h : Unblocked i s) :
    (lengthOk i.lead && vvvvOk i.lead) = true := by
  simp [h.length, h.vvvv]

/-- Past steps 0 to 4 of R149 an instruction is its destination write. -/
theorem exec_eq_writeDest {i : Instr} {s : State} (hw : WellFormed s.mode i = true) (h : Unblocked i s) :
    exec i s = s.writeDest (destOf i s) i.bytes (valueOf i s) (ilen i) := by
  rw [exec_eq, State.guardEncodable_pass s hw, State.gate_pass s h.enabled h.feature h.reserved h.noTs,
    extracted_eq_lane (instr_bytes_cases i)]
  rfl

/-! ## The value written (R92 to R94) -/

theorem valueOf_toNat_lt (i : Instr) (s : State) : (valueOf i s).toNat < 2 ^ (8 * i.bytes) := by
  rw [valueOf, lane, BitVec.toNat_setWidth]
  exact lt_of_le_of_lt (Nat.mod_le _ _) (BitVec.isLt _)

/-- Bits of a field are bits of the word the field is taken from. -/
theorem extractLsb'_extractLsb'_of_add_le {w start len start' len' : Nat} (x : BitVec w) (h : start' + len' ≤ len) :
    (x.extractLsb' start len).extractLsb' start' len' = x.extractLsb' (start + start') len' := by
  apply BitVec.eq_of_getLsbD_eq
  intro i hi
  have hi' : start' + i < len := by omega
  simp only [BitVec.getLsbD_extractLsb', hi, hi', decide_true, Bool.true_and, Nat.add_assoc]

/-- Byte `k` of a lane is byte `k` of the lane's place in the source. -/
theorem extractLsb'_lane {n k : Nat} (hn : n ≤ 8) (hk : k < n) (src : XmmWord) (imm : Byte) :
    (lane n src imm).extractLsb' (8 * k) 8 =
      src.extractLsb' (8 * n * (imm.toNat % (16 / n)) + 8 * k) 8 := by
  rw [lane, BitVec.extractLsb'_setWidth_of_le (by omega), extractLsb'_extractLsb'_of_add_le src (by omega)]

/-! ## The register form (R11, R12, R58) -/

/-- In 32-bit mode no admitted encoding has an element of 8 bytes (R72, R114, R129). -/
theorem bytes_ne_eight_of_mode32 {i : Instr} (h : WellFormed .mode32 i = true) : i.bytes ≠ 8 := by
  cases i <;> simp [WellFormed, Instr.bytes] at h ⊢

/-- In 32-bit mode every extension bit is 0 (R53, R71). -/
theorem ext_of_mode32 {i : Instr} (h : WellFormed .mode32 i = true) :
    extR i.lead = false ∧ extX i.lead = false ∧ extB i.lead = false ∧ extRHi i.lead = false := by
  cases i <;> simp_all [WellFormed, rexWf, Vex.wf, Evex.wf, Instr.lead, extR, extX, extB, extRHi]

theorem gprNum_false (r : BitVec 3) : gprNum false r = r.setWidth 4 := by
  revert r; decide

theorem gprNum_false_toNat_lt (r : BitVec 3) : (gprNum false r).toNat < 8 := by
  revert r; decide

theorem dest_toNat_lt_of_mode32 {i : Instr} {s : State} {d : BitVec 4} (h : WellFormed .mode32 i = true)
    (hd : destOf i s = .reg d) : d.toNat < 8 := by
  obtain ⟨rm, -, rfl⟩ := destOf_eq_reg_iff.mp hd
  obtain ⟨-, -, hB, -⟩ := ext_of_mode32 h
  rw [hB]
  exact gprNum_false_toNat_lt rm

/-- A register destination of an admitted encoding is a register of the mode and wide enough for the element. -/
theorem dest_fits {i : Instr} {s : State} {d : BitVec 4} (hw : WellFormed s.mode i = true)
    (hd : destOf i s = .reg d) : s.mode = .mode64 ∨ d.toNat < 8 ∧ (valueOf i s).toNat < 2 ^ 32 := by
  cases hm : s.mode with
  | mode64 => exact .inl rfl
  | mode32 =>
    rw [hm] at hw
    refine .inr ⟨dest_toNat_lt_of_mode32 hw hd, ?_⟩
    have hv := valueOf_toNat_lt i s
    have h8 := bytes_ne_eight_of_mode32 hw
    rcases instr_bytes_cases i with h | h | h <;> rw [h] at hv <;> omega

/-- A ready register form leaves the value in its destination register and nothing else but the program counter. -/
theorem Ready.exec_reg {i : Instr} {s : State} {d : BitVec 4} (h : Ready i s) (hd : destOf i s = .reg d) :
    ∃ t, exec i s = .next t ∧ t.gpr d = valueOf i s ∧ t.pc = s.pc + ilen i ∧
      (∀ j, j ≠ d → t.gpr j = s.gpr j) ∧ t.mem = s.mem ∧ SameSystem s t := by
  obtain ⟨t, ht, hv, hj, hm, hs, hpc⟩ :=
    State.writeDest_reg_next i.bytes (dest_fits h.encodable hd) h.fits
  exact ⟨t, by rw [exec_eq_writeDest h.encodable h.toUnblocked, hd, ht], hv, hpc, hj, hm, hs⟩

/-- Settles O5: the lane of one byte is the selected byte with zeros above it. -/
theorem byteToRegister : Obligations.ByteToRegister := by
  intro i s d hi h hd
  have hv : valueOf i s = ((sourceOf i s).extractLsb' (8 * (i.args.imm.toNat % 16)) 8).setWidth 64 := by
    rw [valueOf, hi]; rfl
  exact hv ▸ h.exec_reg hd

/-- Settles O6: the lane of four bytes, where the mode's registers are wide enough for it. -/
theorem dwordToRegister : Obligations.DwordToRegister := by
  intro i s d hi h hd
  have hv : valueOf i s = ((sourceOf i s).extractLsb' (32 * (i.args.imm.toNat % 4)) 32).setWidth 64 := by
    rw [valueOf, hi]; rfl
  exact hv ▸ h.exec_reg hd

/-- Settles O7: an element of 8 bytes is admitted in 64-bit mode only. -/
theorem qwordToRegister : Obligations.QwordToRegister := by
  intro i s d hi h hd
  have hm : s.mode = .mode64 := by
    cases hm : s.mode with
    | mode64 => rfl
    | mode32 => exact absurd hi (bytes_ne_eight_of_mode32 (hm ▸ h.encodable))
  have hv : valueOf i s = (sourceOf i s).extractLsb' (64 * (i.args.imm.toNat % 2)) 64 := by
    rw [valueOf, hi, lane, BitVec.setWidth_eq]
  exact ⟨hm, hv ▸ h.exec_reg hd⟩

/-! ## The memory form (R31, R32) -/

/-- A ready memory form leaves the bytes of the lane at the address and nothing else but the program counter. -/
theorem Ready.exec_mem {i : Instr} {s : State} {ea : Nat} (h : Ready i s) (hd : destOf i s = .mem ea) :
    ∃ t, exec i s = .next t ∧
      (∀ k, k < i.bytes → t.byte (ea + k) = some ((sourceOf i s).extractLsb'
        (8 * i.bytes * (i.args.imm.toNat % (16 / i.bytes)) + 8 * k) 8)) ∧
      (∀ a, a < ea ∨ ea + i.bytes ≤ a → t.byte a = s.byte a) ∧
      t.pc = s.pc + ilen i ∧ (∀ j, t.gpr j = s.gpr j) ∧ SameSystem s t := by
  have hwr := h.writable
  rw [Writable, hd] at hwr
  obtain ⟨hf, ho⟩ := hwr
  obtain ⟨t, ht, hv, ha, hj, hs, hpc⟩ := State.writeDest_mem_next (valueOf i s) hf ho h.fits
  have h8 : i.bytes ≤ 8 := by
    rcases instr_bytes_cases i with h | h | h <;> omega
  refine ⟨t, by rw [exec_eq_writeDest h.encodable h.toUnblocked, hd, ht], fun k hk => ?_, ha, hpc, hj, hs⟩
  rw [hv k hk, valueOf, extractLsb'_lane h8 hk]

/-- Settles O8: the one byte stored is byte 0 of the lane. -/
theorem byteToMemory : Obligations.ByteToMemory := by
  intro i s ea hi h hd
  obtain ⟨t, ht, hv, ha, hrest⟩ := h.exec_mem hd
  rw [hi] at hv ha
  exact ⟨t, ht, hv 0 (by omega), fun a hne => ha a (by omega), hrest⟩

/-- Settles O9: the memory form at a width of four bytes. -/
theorem dwordToMemory : Obligations.DwordToMemory := by
  intro i s ea hi h hd
  have ht := h.exec_mem hd
  rw [hi] at ht
  exact ht

/-- Settles O10: the memory form at a width of eight bytes. -/
theorem qwordToMemory : Obligations.QwordToMemory := by
  intro i s ea hi h hd
  have ht := h.exec_mem hd
  rw [hi] at ht
  exact ht

end Sys2Proof.Machine
end

section
/-! PROOFS. The three outcomes of an instruction, each said once: which fault stops it, in the order of R149, where it
is refused, and what it leaves otherwise. From them the statements of 60_exceptions.md and R17. -/

namespace Sys2Proof.Machine

/-! ## The gate (R149, steps 1 to 4) -/

/-- One of the #UD checks fails: enable, feature flag, vector length or vvvv. -/
abbrev UdCause (i : Instr) (s : State) : Prop :=
  osEnabled s.cfg i.lead = false ∨ featurePresent s.cfg i = false ∨ lengthOk i.lead = false ∨ vvvvOk i.lead = false

theorem not_udCause_iff {i : Instr} {s : State} :
    ¬ UdCause i s ↔ osEnabled s.cfg i.lead = true ∧ featurePresent s.cfg i = true ∧ lengthOk i.lead = true ∧
      vvvvOk i.lead = true := by
  simp [UdCause, not_or]

theorem unblocked_iff {i : Instr} {s : State} : Unblocked i s ↔ ¬ UdCause i s ∧ s.cfg.ts = false := by
  rw [not_udCause_iff]
  exact ⟨fun h => ⟨⟨h.enabled, h.feature, h.length, h.vvvv⟩, h.noTs⟩,
    fun ⟨⟨he, hf, hl, hv⟩, ht⟩ => ⟨he, hf, hl, hv, ht⟩⟩

theorem exec_eq_ud_of_udCause {i : Instr} {s : State} (h : UdCause i s) (hw : WellFormed s.mode i = true) :
    exec i s = .fault (.ud s.pc) :=
  exec_eq_ud hw (by rwa [Bool.and_eq_false_iff])

/-- Settles O25: the enable and the feature flag are two of the #UD checks. -/
theorem missingEnableOrFeatureRaisesUd : Obligations.MissingEnableOrFeatureRaisesUd := by
  intro i s hw h
  exact exec_eq_ud_of_udCause (h.imp_right .inl) hw

/-- Settles O26: TS is looked at after the #UD checks and before the operand. -/
theorem taskSwitchedRaisesNm : Obligations.TaskSwitchedRaisesNm := by
  intro i s hw he hf hl hv ht
  rw [exec_eq, State.guardEncodable_pass s hw]
  simp [State.gate, State.raise, he, hf, hl, hv, ht]

/-! ## The fault of an instruction (R149, R40) -/

/-- What stops an admitted encoding: the first check of R149 that fails, or the program text. -/
def faultOf (i : Instr) (s : State) : Option Fault :=
  if UdCause i s then some (.ud s.pc)
  else if s.cfg.ts = true then some (.nm s.pc)
  else s.blocked (destOf i s) i.bytes

/-- Past the gate only the destination stops an instruction. -/
theorem Unblocked.faultOf_eq {i : Instr} {s : State} (h : Unblocked i s) :
    faultOf i s = s.blocked (destOf i s) i.bytes := by
  obtain ⟨hud, hts⟩ := unblocked_iff.mp h
  simp only [faultOf, hud, hts, Bool.false_eq_true, if_false]

/-- An admitted encoding faults as `faultOf` says, or comes to completion with the destination written. -/
theorem exec_eq_faultOf {i : Instr} {s : State} (hw : WellFormed s.mode i = true) :
    exec i s = (faultOf i s).elim
      ((s.written (destOf i s) i.bytes (valueOf i s)).advance (ilen i)) .fault := by
  by_cases hud : UdCause i s
  · rw [faultOf, if_pos hud]
    exact exec_eq_ud_of_udCause hud hw
  by_cases hts : s.cfg.ts = true
  · obtain ⟨he, hf, hl, hv⟩ := not_udCause_iff.mp hud
    rw [faultOf, if_neg hud, if_pos hts]
    exact taskSwitchedRaisesNm i s hw he hf hl hv hts
  · have hu : Unblocked i s := unblocked_iff.mpr ⟨hud, by simpa using hts⟩
    rw [exec_eq_writeDest hw hu, hu.faultOf_eq, State.writeDest_eq]
    cases s.blocked (destOf i s) i.bytes <;> rfl

theorem exec_of_not_wellFormed {i : Instr} {s : State} (hw : ¬ WellFormed s.mode i = true) :
    exec i s = .refused .notEncodable := by
  rw [exec_eq, State.guardEncodable, if_neg hw]

theorem exec_fault_iff {i : Instr} {s : State} {f : Fault} :
    exec i s = .fault f ↔ WellFormed s.mode i = true ∧ faultOf i s = some f := by
  by_cases hw : WellFormed s.mode i = true
  · rw [exec_eq_faultOf hw]
    cases faultOf i s with
    | some g => simp [hw]
    | none => simp [State.advance_ne_fault]
  · simp [exec_of_not_wellFormed hw, hw]

theorem State.advance_refused_iff {s : State} {len : Nat} {r : Refusal} :
    s.advance len = .refused r ↔ r = .pcPastTop ∧ 2 ^ s.mode.bits ≤ s.pc + len := by
  unfold State.advance
  split_ifs with h
  · simp [h]
  · simp only [Host.Outcome.refused.injEq, eq_comm (a := Refusal.pcPastTop), not_lt.mp h, and_true]

theorem exec_refused_iff {i : Instr} {s : State} {r : Refusal} (hw : WellFormed s.mode i = true) :
    exec i s = .refused r ↔ r = .pcPastTop ∧ faultOf i s = none ∧ 2 ^ s.mode.bits ≤ s.pc + ilen i := by
  rw [exec_eq_faultOf hw]
  cases faultOf i s with
  | some g => simp
  | none => simp [State.advance_refused_iff]

theorem exec_next_iff {i : Instr} {s t : State} :
    exec i s = .next t ↔ WellFormed s.mode i = true ∧ faultOf i s = none ∧ s.pc + ilen i < 2 ^ s.mode.bits ∧
      t = (s.written (destOf i s) i.bytes (valueOf i s)).withPc (s.pc + ilen i) := by
  by_cases hw : WellFormed s.mode i = true
  · rw [exec_eq_faultOf hw]
    cases faultOf i s with
    | some g => simp
    | none => simp [State.advance_next, hw]
  · simp [exec_of_not_wellFormed hw, hw]

/-! ## Faults of the destination (R33, R35, R40, R147) -/

theorem State.blocked_of_memoryFault {s : State} {ea n : Nat} {kind : MemFaultKind}
    (h : s.memoryFault ea n = some kind) : s.blocked (.mem ea) n = some (.memory kind s.pc ea n) := by
  simp only [State.blocked, h]

theorem State.blocked_of_overlapsText {s : State} {ea n : Nat} (hf : s.memoryFault ea n = none)
    (ho : s.overlapsText ea n = true) : s.blocked (.mem ea) n = some (.storeIntoText s.pc ea n) := by
  simp only [State.blocked, hf, ho, if_true]

/-- What blocks a write is one of the two, and it is a memory destination. -/
theorem State.blocked_eq_some {s : State} {d : Dest} {n : Nat} {f : Fault} (h : s.blocked d n = some f) :
    ∃ ea, d = .mem ea ∧ ((∃ kind, s.memoryFault ea n = some kind ∧ f = .memory kind s.pc ea n) ∨
      (s.memoryFault ea n = none ∧ f = .storeIntoText s.pc ea n ∧ s.overlapsText ea n = true)) := by
  cases d with
  | reg r => simp [State.blocked] at h
  | mem ea =>
    refine ⟨ea, rfl, ?_⟩
    cases hf : s.memoryFault ea n with
    | some kind =>
      rw [State.blocked_of_memoryFault hf, Option.some.injEq] at h
      exact .inl ⟨kind, rfl, h.symm⟩
    | none =>
      cases ho : s.overlapsText ea n with
      | true =>
        rw [State.blocked_of_overlapsText hf ho, Option.some.injEq] at h
        exact .inr ⟨rfl, h.symm, rfl⟩
      | false => simp [State.blocked_mem_eq_none_iff.mpr ⟨hf, ho⟩] at h

/-- An unblocked memory form whose store raises a memory fault is that fault. -/
theorem exec_of_memoryFault {i : Instr} {s : State} {ea : Nat} {kind : MemFaultKind}
    (hw : WellFormed s.mode i = true) (hu : Unblocked i s) (hd : destOf i s = .mem ea)
    (h : s.memoryFault ea i.bytes = some kind) : exec i s = .fault (.memory kind s.pc ea i.bytes) :=
  exec_fault_iff.mpr ⟨hw, by rw [hu.faultOf_eq, hd, State.blocked_of_memoryFault h]⟩

theorem State.memoryFault_of_misaligned {s : State} {ea n : Nat} (ha : s.cfg.alignCheck = true)
    (hn : ea % n ≠ 0) : s.memoryFault ea n = some .ac := by
  rw [State.memoryFault, if_pos ⟨ha, hn⟩]

theorem State.memoryFault_of_lookup {s : State} {ea n : Nat} {kind : MemFaultKind}
    (ha : s.cfg.alignCheck = false ∨ ea % n = 0) (h : Denial.lookup s.cfg.denials ea n = some kind) :
    s.memoryFault ea n = some kind := by
  have hal : ¬ (s.cfg.alignCheck = true ∧ ea % n ≠ 0) := by
    rcases ha with ha | ha <;> simp [ha]
  simp only [State.memoryFault, if_neg hal, h]

/-- Settles O27: alignment is looked at before what the platform admits; every address is a multiple of 1. -/
theorem misalignedStoreRaisesAc : Obligations.MisalignedStoreRaisesAc := by
  refine ⟨fun i s ea hw hu hd ha hn => ?_, fun i ea hi => by rw [hi, Nat.mod_one]⟩
  exact exec_of_memoryFault hw hu hd (State.memoryFault_of_misaligned ha hn)

/-- Settles O28: the platform's kind is looked up after alignment, and either reason is a memory fault. -/
theorem unadmittedStoreRaisesMemoryFault : Obligations.UnadmittedStoreRaisesMemoryFault := by
  intro i s ea hw hu hd
  refine ⟨fun kind hk ha => exec_of_memoryFault hw hu hd (State.memoryFault_of_lookup ha hk), fun h => ?_⟩
  cases hf : s.memoryFault ea i.bytes with
  | some kind => exact ⟨kind, exec_of_memoryFault hw hu hd hf⟩
  | none =>
    obtain ⟨-, hl, htop⟩ := State.memoryFault_eq_none_iff.mp hf
    exact absurd h (by simp [hl, htop])

theorem instr_bytes_pos (i : Instr) : 0 < i.bytes := by
  rcases instr_bytes_cases i with h | h | h <;> omega

/-- Settles O29: the bytes that overlap the text are found by `overlapsText`, after the memory faults. -/
theorem storeIntoTextFaults : Obligations.StoreIntoTextFaults := by
  intro i s ea hw hu hd hf ho
  have ho' := (State.overlapsText_iff (instr_bytes_pos i)).mpr ho
  exact exec_fault_iff.mpr ⟨hw, by rw [hu.faultOf_eq, hd, State.blocked_of_overlapsText hf ho']⟩

/-! ## Every fault and every refusal has its cause (R17, R140, R148, R149) -/

/-- Settles O30: the branches of `faultOf`, in their order. -/
theorem faultHasAListedCause : Obligations.FaultHasAListedCause := by
  intro i s f h
  obtain ⟨hw, hf⟩ := exec_fault_iff.mp h
  refine ⟨hw, ?_⟩
  by_cases hud : UdCause i s
  · rw [faultOf, if_pos hud, Option.some.injEq] at hf
    exact .inl ⟨hf.symm, hud⟩
  by_cases hts : s.cfg.ts = true
  · rw [faultOf, if_neg hud, if_pos hts, Option.some.injEq] at hf
    obtain ⟨he, hft, hl, hv⟩ := not_udCause_iff.mp hud
    exact .inr (.inl ⟨hf.symm, he, hft, hl, hv, hts⟩)
  · have hu : Unblocked i s := unblocked_iff.mpr ⟨hud, by simpa using hts⟩
    rw [hu.faultOf_eq] at hf
    obtain ⟨ea, hd, hm | ⟨hm, hfe, ho⟩⟩ := State.blocked_eq_some hf
    · exact .inr (.inr ⟨hu, ea, hd, .inl hm⟩)
    · exact .inr (.inr ⟨hu, ea, hd, .inr ⟨hm, hfe, (State.overlapsText_iff (instr_bytes_pos i)).mp ho⟩⟩)

theorem blocked_destOf_eq_none_iff {i : Instr} {s : State} :
    s.blocked (destOf i s) i.bytes = none ↔ Writable i s := by
  unfold Writable
  cases destOf i s with
  | reg d => simp [State.blocked]
  | mem ea => exact State.blocked_mem_eq_none_iff

theorem faultOf_eq_none_iff {i : Instr} {s : State} : faultOf i s = none ↔ Unblocked i s ∧ Writable i s := by
  constructor
  · intro h
    have hud : ¬ UdCause i s := fun hc => by simp [faultOf, if_pos hc] at h
    have hts : ¬ s.cfg.ts = true := fun hc => by simp [faultOf, if_neg hud, hc] at h
    have hu : Unblocked i s := unblocked_iff.mpr ⟨hud, by simpa using hts⟩
    rw [hu.faultOf_eq] at h
    exact ⟨hu, blocked_destOf_eq_none_iff.mp h⟩
  · rintro ⟨hu, hwr⟩
    rw [hu.faultOf_eq]
    exact blocked_destOf_eq_none_iff.mpr hwr

/-- Settles O31: completion is the one place that refuses an admitted encoding. -/
theorem admittedEncodingRefusedOnlyAtTop : Obligations.AdmittedEncodingRefusedOnlyAtTop := by
  intro i s hw r
  rw [exec_refused_iff hw, faultOf_eq_none_iff, and_assoc]

/-- Settles O56: by the causes of a fault, each recorded under its own constructor. -/
theorem faultRecords : Obligations.FaultRecords := by
  intro i s f h
  obtain ⟨-, ⟨rfl, -⟩ | ⟨rfl, -⟩ | ⟨-, ea, hd, ⟨kind, -, rfl⟩ | ⟨-, rfl, -⟩⟩⟩ := faultHasAListedCause i s f h
  · simp [Fault.vector, Fault.errorCode, Fault.pageFaultAddress]
  · simp [Fault.vector, Fault.errorCode, Fault.pageFaultAddress]
  · cases kind <;> simp [Fault.vector, Fault.errorCode, Fault.pageFaultAddress, recordOf, hd]
  · simp [Fault.vector, Fault.pageFaultAddress]

end Sys2Proof.Machine
end

section
/-! PROOFS. What of the state an instruction leaves alone (its frames), and what of the state and of its own fields the
outcome depends on: R13, R31, R64, R115, R130 and the last sentence of R140. -/

namespace Sys2Proof.Machine

/-! ## Frames (R11, R31) -/

/-- Settles O14: the next state is the old one with one register written and the program counter moved. -/
theorem registerFormFrame : Obligations.RegisterFormFrame := by
  intro i s t d hd ht
  obtain rfl := exec_next_reg hd ht
  exact ⟨fun j hj => by rw [State.withPc_gpr, s.withGpr_gpr_ne _ hj], fun a => rfl, exec_next_sameSystem ht⟩

/-- Settles O15: the store was not blocked, so it wrote its bytes off the text and nothing else. -/
theorem memoryFormFrame : Obligations.MemoryFormFrame := by
  intro i s t m hm ht
  have hd : destOf i s = .mem (effAddr s i.lead (ilen i) i.bytes m) := by rw [destOf, hm, dest]
  have hs := exec_next_sameSystem ht
  obtain ⟨-, -, -, -, -, hb, -, rfl⟩ := exec_next ht
  rw [hd] at hb hs ⊢
  obtain ⟨-, ho⟩ := State.blocked_mem_eq_none_iff.mp hb
  refine ⟨fun a ha => ?_, fun j => ?_, hs⟩
  · rw [State.written_byte s _ _ _ _ a ho, if_neg (by omega)]
  · rw [State.withPc_gpr]
    rfl

/-! ## What the result depends on (R13, R31, R64, R115, R130) -/

theorem State.withPc_withPc (s : State) (m n : Nat) : (s.withPc m).withPc n = s.withPc n := by
  rcases s with ⟨_ | _⟩ <;> rfl

theorem vector_setIfInBounds_comm {α : Type} {n i j : Nat} (v : Vector α n) (a b : α) (h : i ≠ j) :
    (v.setIfInBounds i a).setIfInBounds j b = (v.setIfInBounds j b).setIfInBounds i a := by
  rw [← Vector.toArray_inj]
  simpa using Array.setIfInBounds_comm a b h

theorem State.withGpr_comm (s : State) {d j : BitVec 4} (h : j ≠ d) (v w : BitVec 64) :
    (s.withGpr j v).withGpr d w = (s.withGpr d w).withGpr j v := by
  have hn : j.toNat ≠ d.toNat := fun e => h (BitVec.eq_of_toNat_eq e)
  rcases s with ⟨_ | _⟩ <;>
    simp only [State.withGpr, Regs.withGpr, vector_setIfInBounds_comm _ _ _ hn]

theorem State.withGpr_withPc (s : State) (j : BitVec 4) (v : BitVec 64) (n : Nat) :
    (s.withGpr j v).withPc n = (s.withPc n).withGpr j v := by
  rcases s with ⟨_ | _⟩ <;> rfl

/-- Settles O17: the other register is none of the inputs, and the two writes commute. -/
theorem registerFormReadsNoGpr : Obligations.RegisterFormReadsNoGpr := by
  intro i s d j v hd
  by_cases hj : j = d
  · subst hj
    rw [exec_withGpr_dest hd]
    cases exec i s <;> simp [mapNext]
  · simp only [hj, if_false]
    refine (SameInputs.withGpr_of_reg hd j v).exec_eq_mapNext fun t n => ?_
    simp only [hd, State.written, State.withGpr_comm s hj, State.withGpr_withPc]

/-- No instruction reads data memory. -/
theorem SameInputs.withMem (i : Instr) (s : State) (m : Memory) : SameInputs i s (s.withMem m) := by
  constructor <;> rfl

/-- The states `s` and `u` agree on everything the checks of R149 and R40 look at besides the operands. -/
structure SameChecks (s u : State) : Prop where
  mode     : u.mode = s.mode
  pc       : u.pc = s.pc
  cfg      : u.cfg = s.cfg
  textBase : u.textBase = s.textBase
  text     : u.text = s.text

theorem SameChecks.blocked {s u : State} (h : SameChecks s u) (d : Dest) (n : Nat) :
    u.blocked d n = s.blocked d n := by
  have hf (ea : Nat) : u.memoryFault ea n = s.memoryFault ea n := by
    rw [State.memoryFault, State.memoryFault, h.cfg, h.mode]
  have ho (ea : Nat) : u.overlapsText ea n = s.overlapsText ea n := by
    rw [State.overlapsText, State.overlapsText, State.textLimit, State.textLimit, h.text, h.textBase]
  cases d with
  | reg r => rfl
  | mem ea => rw [State.blocked, State.blocked, hf, ho, h.pc]

theorem featurePresent_congr {i j : Instr} (hl : j.lead = i.lead) (hb : j.bytes = i.bytes) (c : Config) :
    featurePresent c j = featurePresent c i := by
  rw [featurePresent, featurePresent, hl, hb]

/-- What stops an instruction is decided by the prefix part, the width, operand 1 and the state the checks look at. -/
theorem faultOf_congr {i j : Instr} {s u : State} (hl : j.lead = i.lead) (hb : j.bytes = i.bytes)
    (h : SameChecks s u) (hd : destOf j u = destOf i s) : faultOf j u = faultOf i s := by
  simp only [faultOf, UdCause, featurePresent_congr hl hb, hl, hb, h.cfg, h.pc, hd, h.blocked]

theorem SameInputs.sameChecks {i : Instr} {s u : State} (h : SameInputs i s u) : SameChecks s u :=
  ⟨h.mode, h.pc, h.cfg, h.textBase, h.text⟩

theorem SameInputs.faultOf {i : Instr} {s u : State} (h : SameInputs i s u) : faultOf i u = faultOf i s :=
  faultOf_congr rfl rfl h.sameChecks h.dest

theorem SameInputs.valueOf {i : Instr} {s u : State} (h : SameInputs i s u) : valueOf i u = valueOf i s := by
  rw [Machine.valueOf, Machine.valueOf, h.source]

/-- Settles O18: the same stops, and at completion the same write into the other memory. -/
theorem dataMemoryIsNotRead : Obligations.DataMemoryIsNotRead := by
  intro i s m
  have hin := SameInputs.withMem i s m
  refine ⟨fun f h => ?_, fun r h => ?_, fun t h => ?_⟩
  · rw [exec_fault_iff] at h ⊢
    rwa [hin.faultOf]
  · by_cases hw : WellFormed s.mode i = true
    · rw [exec_refused_iff hw] at h
      rw [exec_refused_iff (s := s.withMem m) hw, hin.faultOf]
      exact h
    · rw [exec_of_not_wellFormed hw] at h
      rw [exec_of_not_wellFormed (s := s.withMem m) hw, h]
  · obtain ⟨hw, hf, hp, rfl⟩ := exec_next_iff.mp h
    refine ⟨fun d hd => ?_, fun ea hd => ?_⟩
    · refine exec_next_iff.mpr ⟨hw, hin.faultOf.trans hf, hp, ?_⟩
      rw [hin.dest, hin.valueOf, hd]
      rfl
    · refine exec_next_iff.mpr ⟨hw, hin.faultOf.trans hf, hp, ?_⟩
      rw [hin.dest, hin.valueOf, hd]
      rfl

/-! ## What of a term the result depends on (R64, R140) -/

/-- The instruction of a class with an element of `n` bytes and the operand bytes `a`. -/
def instrOf (l : Lead) (n : Nat) (a : Args) : Instr :=
  match l with
  | .legacy none => if n = 1 then .pextrb none a else .pextrd none a
  | .legacy (some r) => if n = 1 then .pextrb (some r) a else if n = 4 then .pextrd (some r) a else .pextrq r a
  | .vex p => if n = 1 then .vpextrbVex p a else if n = 4 then .vpextrdVex p a else .vpextrqVex p a
  | .evex p => if n = 1 then .vpextrbEvex p a else if n = 4 then .vpextrdEvex p a else .vpextrqEvex p a

/-- An instruction is its prefix part, its width and its operand bytes. -/
theorem instr_eq (i : Instr) : i = instrOf i.lead i.bytes i.args := by
  cases i with
  | pextrb rex a => cases rex <;> rfl
  | pextrd rex a => cases rex <;> rfl
  | _ => rfl

theorem wellFormed_instr_congr {a a' : Args} (h : a'.rm = a.rm) (m : Mode) (l : Lead) (n : Nat) :
    WellFormed m (instrOf l n a') = WellFormed m (instrOf l n a) := by
  obtain ⟨reg, rm, imm⟩ := a
  obtain ⟨reg', rm', imm'⟩ := a'
  obtain rfl : rm' = rm := h
  rcases l with (_ | r) | p | p <;> simp only [instrOf] <;> split_ifs <;> rfl

/-- Whether an encoding is admitted depends on neither the source nor `imm8`. -/
theorem wellFormed_congr {i j : Instr} (hl : j.lead = i.lead) (hb : j.bytes = i.bytes)
    (hr : j.args.rm = i.args.rm) (m : Mode) : WellFormed m j = WellFormed m i := by
  rw [instr_eq j, instr_eq i, hl, hb, wellFormed_instr_congr hr]

theorem ilen_congr {i j : Instr} (hl : j.lead = i.lead) (hr : j.args.rm = i.args.rm) : ilen j = ilen i := by
  rw [ilen, ilen, hl, hr]

theorem destOf_congr {i j : Instr} (hl : j.lead = i.lead) (hb : j.bytes = i.bytes) (hr : j.args.rm = i.args.rm)
    (s : State) : destOf j s = destOf i s := by
  rw [destOf, destOf, ilen_congr hl hr, hl, hb, hr]

/-- Settles O19: the lane depends on the select alone, and nothing else looks at `imm8`. -/
theorem immediateHighBitsIgnored : Obligations.ImmediateHighBitsIgnored := by
  intro i j s hl hb hreg hrm himm
  have hv : valueOf j s = valueOf i s := by
    rw [valueOf, valueOf, sourceOf, sourceOf, hb, hl, hreg, lane, lane, himm]
  have hwf := wellFormed_congr hl hb hrm s.mode
  by_cases hw : WellFormed s.mode i = true
  · rw [exec_eq_faultOf hw, exec_eq_faultOf (hwf.trans hw), hv, destOf_congr hl hb hrm, hb, ilen_congr hl hrm,
      faultOf_congr hl hb ⟨rfl, rfl, rfl, rfl, rfl⟩ (destOf_congr hl hb hrm s)]
  · rw [exec_of_not_wellFormed hw, exec_of_not_wellFormed (hwf ▸ hw)]

/-- Settles O20: both next states are the same write, with the program counter moved. -/
theorem classesAgreeOnResult : Obligations.ClassesAgreeOnResult := by
  intro i j s t u hb hd hs himm ht hu n
  obtain ⟨-, -, -, rfl⟩ := exec_next_iff.mp ht
  obtain ⟨-, -, -, rfl⟩ := exec_next_iff.mp hu
  have hv : valueOf j s = valueOf i s := by rw [valueOf, valueOf, hb, hs, himm]
  rw [State.withPc_withPc, State.withPc_withPc, hd, hb, hv]

/-- The checks look at neither the source nor `imm8`. -/
theorem exec_fault_congr {i j : Instr} {s u : State} (hl : j.lead = i.lead) (hb : j.bytes = i.bytes)
    (hr : j.args.rm = i.args.rm) (h : SameChecks s u) (hd : destOf i u = destOf i s) (f : Fault) :
    exec i s = .fault f ↔ exec j u = .fault f := by
  rw [exec_fault_iff, exec_fault_iff, h.mode, wellFormed_congr hl hb hr,
    faultOf_congr hl hb h ((destOf_congr hl hb hr u).trans hd)]

/-- Settles O33: the vector registers, the destination register and data memory are none of what the checks read. -/
theorem faultsIgnoreDataAndImmediate : Obligations.FaultsIgnoreDataAndImmediate := by
  intro i j s f hl hb hr
  refine ⟨fun zmm => ?_, fun d v hd => ?_, fun m => ?_⟩
  · have h : SameChecks s (s.withZmm zmm) := ⟨rfl, rfl, rfl, rfl, rfl⟩
    exact exec_fault_congr hl hb hr h rfl f
  · have h := SameInputs.withGpr_of_reg hd d v
    exact exec_fault_congr hl hb hr h.sameChecks h.dest f
  · exact exec_fault_congr hl hb hr (SameInputs.withMem i s m).sameChecks rfl f

end Sys2Proof.Machine
end

section
/-! PROOFS. Which row, with which fields, a byte string is (30_encoding.md R54, R65, R68, R70 to R72): the opcode map,
the W bit of each class, the restrictions of 32-bit mode and the byte strings refused. -/

namespace Sys2Proof.Machine

/-! ## The opcode map (R65) -/

theorem decode_legacy_none_ok_iff {m : Mode} {bs rest : List Byte} {i : Instr} :
    decode m (0x66#8 :: 0x0F#8 :: 0x3A#8 :: bs) = .ok (i, rest) ↔
      ∃ op a, OpcodeAndArgs bs op a rest ∧ i = legacyRow none op a := by
  rw [decode_legacy_none]
  exact decodeEscape_ok_iff

theorem decode_legacy_rex_ok_iff {rex : Byte} (h : rex.extractLsb' 4 4 = 4#4) {bs rest : List Byte} {i : Instr} :
    decode .mode64 (0x66#8 :: rex :: 0x0F#8 :: 0x3A#8 :: bs) = .ok (i, rest) ↔
      ∃ op a, OpcodeAndArgs bs op a rest ∧ i = legacyRow (some (rexOf rex)) op a := by
  rw [decode_legacy_rex h]
  exact decodeEscape_ok_iff

/-- In 32-bit mode a byte 4x after 66 stands where the escape is wanted, and is refused. -/
theorem decode_mode32_rex_ne_ok {rex : Byte} (h : rex.extractLsb' 4 4 = 4#4) (bs : List Byte)
    (o : Instr × List Byte) : decode .mode32 (0x66#8 :: rex :: bs) ≠ .ok o := by
  intro hd
  obtain ⟨op, a, tl, -, hbs, -⟩ := decodeEscape_ok (m := .mode32) (rex := none) (i := o.1) (rest := o.2) hd
  obtain ⟨rfl, -⟩ := List.cons.inj hbs
  exact absurd h (by decide)

/-- The row of a legacy byte string with a REX byte. -/
theorem decode_legacy_rex_row {rex op : Byte} (hrex : rex.extractLsb' 4 4 = 4#4) {bs rest : List Byte} {i : Instr}
    (h : decode .mode64 (0x66#8 :: rex :: 0x0F#8 :: 0x3A#8 :: op :: bs) = .ok (i, rest)) :
    i.lead = .legacy (some (rexOf rex)) ∧ (op = 0x14#8 ∨ op = 0x16#8) ∧
      i.bytes = if op = 0x14#8 then 1 else if rex.getLsbD 3 = true then 8 else 4 := by
  obtain ⟨op', a, ht, rfl⟩ := (decode_legacy_rex_ok_iff hrex).mp h
  obtain rfl := ht.opcode_eq
  exact ⟨legacyRow_lead .., ht.1, legacyRow_bytes ..⟩

theorem decode_legacy_none_row {m : Mode} {op : Byte} {bs rest : List Byte} {i : Instr}
    (h : decode m (0x66#8 :: 0x0F#8 :: 0x3A#8 :: op :: bs) = .ok (i, rest)) :
    i.lead = .legacy none ∧ (op = 0x14#8 ∨ op = 0x16#8) ∧ i.bytes = if op = 0x14#8 then 1 else 4 := by
  obtain ⟨op', a, ht, rfl⟩ := decode_legacy_none_ok_iff.mp h
  obtain rfl := ht.opcode_eq
  exact ⟨legacyRow_lead .., ht.1, legacyRow_bytes ..⟩

/-- The row of a VEX byte string. -/
theorem decode_vex_row {m : Mode} {b1 b2 op : Byte} {bs rest : List Byte} {i : Instr}
    (h : decode m (0xC4#8 :: b1 :: b2 :: op :: bs) = .ok (i, rest)) :
    i.lead = .vex (vexOf b1 b2) ∧ (op = 0x14#8 ∨ op = 0x16#8) ∧
      i.bytes = if op = 0x14#8 then 1 else if m = .mode64 ∧ b2.getLsbD 7 = true then 8 else 4 := by
  obtain ⟨-, op', a, ht, rfl⟩ := decode_vex_ok_iff.mp h
  obtain rfl := ht.opcode_eq
  exact ⟨vexRow_lead .., ht.1, vexRow_bytes ..⟩

/-- The row of an EVEX byte string. -/
theorem decode_evex_row {m : Mode} {p0 p1 p2 op : Byte} {bs rest : List Byte} {i : Instr}
    (h : decode m (0x62#8 :: p0 :: p1 :: p2 :: op :: bs) = .ok (i, rest)) :
    i.lead = .evex (evexOf p0 p1 p2) ∧ (op = 0x14#8 ∨ op = 0x16#8) ∧
      i.bytes = if op = 0x14#8 then 1 else if m = .mode64 ∧ p1.getLsbD 7 = true then 8 else 4 := by
  obtain ⟨-, op', a, ht, -, rfl⟩ := decode_evex_ok_iff.mp h
  obtain rfl := ht.opcode_eq
  exact ⟨evexRow_lead .., ht.1, evexRow_bytes ..⟩

/-- The three rows of a VEX or EVEX opcode byte, by W and the mode. -/
theorem vector_row_cases {m : Mode} {op : Byte} {w : Bool} {n : Nat} (hop : op = 0x14#8 ∨ op = 0x16#8)
    (h : n = if op = 0x14#8 then 1 else if m = .mode64 ∧ w = true then 8 else 4) :
    op = 0x14#8 ∧ n = 1 ∨ op = 0x16#8 ∧ (m = .mode32 ∨ w = false) ∧ n = 4 ∨
      op = 0x16#8 ∧ m = .mode64 ∧ w = true ∧ n = 8 := by
  subst h
  rcases hop with rfl | rfl
  · exact .inl ⟨rfl, rfl⟩
  · cases m <;> cases w <;> simp

/-- Settles O40: each class's row is a function of the opcode byte, W and the mode. -/
theorem opcodeMap : Obligations.OpcodeMap := by
  intro m op bs i rest
  refine ⟨fun h => ?_, fun rex hrex => ⟨fun h => ?_, decode_mode32_rex_ne_ok hrex _⟩, fun b1 b2 h => ?_,
    fun p0 p1 p2 h => ?_⟩
  · obtain ⟨hl, rfl | rfl, hb⟩ := decode_legacy_none_row h
    · exact ⟨hl, .inl ⟨rfl, hb⟩⟩
    · exact ⟨hl, .inr ⟨rfl, hb⟩⟩
  · obtain ⟨hl, hop, hb⟩ := decode_legacy_rex_row hrex h
    refine ⟨hl, ?_⟩
    rcases hop with rfl | rfl
    · exact .inl ⟨rfl, hb⟩
    · cases hw : rex.getLsbD 3 with
      | false =>
        rw [hw] at hb
        exact .inr (.inl ⟨rfl, rfl, hb⟩)
      | true =>
        rw [hw] at hb
        exact .inr (.inr ⟨rfl, rfl, hb⟩)
  · obtain ⟨hl, hop, hb⟩ := decode_vex_row h
    exact ⟨hl, vector_row_cases hop hb⟩
  · obtain ⟨hl, hop, hb⟩ := decode_evex_row h
    exact ⟨hl, vector_row_cases hop hb⟩

/-! ## The W bit (R70, R129) -/

theorem evexOf_flipW (p0 p1 p2 : Byte) :
    evexOf p0 (p1 ^^^ 0x80#8) p2 = { evexOf p0 p1 p2 with w := !p1.getLsbD 7 } := by
  obtain ⟨hw, hv, -, -⟩ := payload_flipW p1
  simp only [evexOf, hw, hv]

theorem EvexPayload.flipW {m : Mode} {p0 p1 p2 : Byte} (h : EvexPayload m p0 p1 p2) :
    EvexPayload m p0 (p1 ^^^ 0x80#8) p2 := by
  obtain ⟨-, -, h2, hpp⟩ := payload_flipW p1
  exact { h with pp := hpp.trans h.pp, p1b2 := h2.trans h.p1b2 }

/-- In 32-bit mode, and for opcode 14 in either mode, the opcode byte alone selects the EVEX row. -/
theorem evexRow_of_w_ignored {m : Mode} {op : Byte} (h : m = .mode32 ∨ op = 0x14#8) (p : Evex) (a : Args) :
    evexRow m p op a = if op = 0x14#8 then .vpextrbEvex p a else .vpextrdEvex p a := by
  rcases h with rfl | rfl
  · simp [evexRow]
  · rfl

theorem decode_evex_eq_of_w_ignored {m : Mode} {p0 p1 p2 op : Byte} {bs rest : List Byte} {i : Instr}
    (hm : m = .mode32 ∨ op = 0x14#8) (h : decode m (0x62#8 :: p0 :: p1 :: p2 :: op :: bs) = .ok (i, rest)) :
    i = if op = 0x14#8 then .vpextrbEvex (evexOf p0 p1 p2) i.args else .vpextrdEvex (evexOf p0 p1 p2) i.args := by
  obtain ⟨-, op', a, ht, -, rfl⟩ := decode_evex_ok_iff.mp h
  obtain rfl := ht.opcode_eq
  rw [evexRow_args, evexRow_of_w_ignored hm]

/-- The refusals that look at the operand bytes do not depend on W, but for the displacement of R69. -/
theorem evexArgsReject_of_w_ignored {m : Mode} {p : Evex} {op : Byte} {a : Args} (w : Bool)
    (h : op = 0x14#8 ∨ a.rm.hasDisp8 = false) (hn : evexArgsReject m p op a = none) :
    evexArgsReject m { p with w := w } op a = none := by
  rw [evexArgsReject_eq_none] at hn ⊢
  refine ⟨hn.1, fun ⟨_, h16, _, hd⟩ => ?_⟩
  rcases h with h14 | hd'
  · rw [h14] at h16
    exact absurd h16 (by decide)
  · rw [hd'] at hd
    exact absurd hd (by decide)

/-- The EVEX byte strings the decoder refuses for their operand bytes alone. -/
theorem decode_evex_of_reject {m : Mode} {p0 p1 p2 op : Byte} {bs rest : List Byte} {a : Args} {e : Reject}
    (hf : EvexPayload m p0 p1 p2) (ht : OpcodeAndArgs bs op a rest)
    (he : evexArgsReject m (evexOf p0 p1 p2) op a = some e) :
    decode m (0x62#8 :: p0 :: p1 :: p2 :: bs) = .error e := by
  obtain ⟨hop, tl, rfl, ha⟩ := ht
  have hop' : ¬ (op ≠ 0x14#8 ∧ op ≠ 0x16#8) := by tauto
  have hext' : ¬ (m = .mode32 ∧ p0.extractLsb' 4 4 ≠ 15#4) := by
    have := hf.ext
    tauto
  change decodeEvex m (p0 :: p1 :: p2 :: op :: tl) = .error e
  simp only [decodeEvex, hf.map, hf.pp, hf.p0b3, hf.p1b2, hf.z, hf.low, hext', hop', ha, he, ne_eq,
    not_true_eq_false, Bool.false_eq_true, Bool.true_eq_false, or_self, if_false]

/-- Where W is ignored and the displacement is settled, the EVEX byte string with the other W bit decodes to the same
width and operands and does the same. -/
theorem decode_evex_flipW {m : Mode} {p0 p1 p2 op : Byte} {bs rest : List Byte} {i : Instr}
    (hm : m = .mode32 ∨ op = 0x14#8) (hd : op = 0x14#8 ∨ i.args.rm.hasDisp8 = false)
    (h : decode m (0x62#8 :: p0 :: p1 :: p2 :: op :: bs) = .ok (i, rest)) :
    ∃ j, decode m (0x62#8 :: p0 :: (p1 ^^^ 0x80#8) :: p2 :: op :: bs) = .ok (j, rest) ∧ j.bytes = i.bytes ∧
      j.args = i.args ∧ ∀ s, s.mode = m → exec j s = exec i s := by
  obtain ⟨hf, op', a, ht, hn, rfl⟩ := decode_evex_ok_iff.mp h
  obtain rfl := ht.opcode_eq
  rw [evexRow_args] at hd
  have hn' : evexArgsReject m (evexOf p0 (p1 ^^^ 0x80#8) p2) op' a = none := by
    rw [evexOf_flipW]
    exact evexArgsReject_of_w_ignored _ hd hn
  have hb : (evexRow m (evexOf p0 (p1 ^^^ 0x80#8) p2) op' a).bytes = (evexRow m (evexOf p0 p1 p2) op' a).bytes := by
    rw [evexRow_of_w_ignored hm, evexRow_of_w_ignored hm]
    split_ifs <;> rfl
  refine ⟨_, decode_evex_ok_iff.mpr ⟨hf.flipW, op', a, ht, hn', rfl⟩, hb, by simp, fun s hs => ?_⟩
  subst hs
  have hl : (evexRow s.mode (evexOf p0 (p1 ^^^ 0x80#8) p2) op' a).lead =
      (evexRow s.mode (evexOf p0 p1 p2) op' a).lead.withW (!p1.getLsbD 7) := by
    simp only [evexRow_lead, evexOf_flipW, Lead.withW]
  refine exec_eq_of_lead_withW hl (by simp) hb ?_
  rw [wellFormed_evexRow ht.1 (hf.flipW.wf hn') ht.args_wf hn', wellFormed_evexRow ht.1 (hf.wf hn) ht.args_wf hn]

/-- Settles O43: the opcode byte alone selects the row; with W = 1 the one new refusal is that of R69. -/
theorem evexWIgnored : Obligations.EvexWIgnored := by
  refine ⟨fun m p0 p1 p2 op bs hm i rest h => ?_, fun p0 p1 p2 bs i rest hw h hd => ?_⟩
  · have hi := decode_evex_eq_of_w_ignored hm h
    refine ⟨?_, ?_, fun hd => decode_evex_flipW hm hd h⟩
    · rintro rfl
      exact ⟨hi, by rw [hi]; rfl⟩
    · rintro rfl
      exact ⟨hi, by rw [hi]; rfl⟩
  · obtain ⟨hf, op', a, ht, hn, rfl⟩ := decode_evex_ok_iff.mp h
    obtain rfl := ht.opcode_eq
    rw [evexRow_args] at hd
    obtain ⟨hx, -⟩ := evexArgsReject_eq_none.mp hn
    refine decode_evex_of_reject hf.flipW ht ?_
    rw [evexOf_flipW, evexArgsReject, if_neg hx, if_pos ⟨rfl, rfl, by rw [hw]; rfl, hd⟩]

/-- Flipping bit 3 of a REX byte flips REX.W and keeps the rest. -/
theorem rex_flipW (rex : Byte) :
    (rex ^^^ 0x08#8).extractLsb' 4 4 = rex.extractLsb' 4 4 ∧
      rexOf (rex ^^^ 0x08#8) = { rexOf rex with w := !rex.getLsbD 3 } := by
  revert rex; decide

/-- Legacy opcode 14 with the other REX.W decodes and does the same. -/
theorem decode_legacy_flipW {rex : Byte} (hrex : rex.extractLsb' 4 4 = 4#4) {bs rest : List Byte} {i : Instr}
    (h : decode .mode64 (0x66#8 :: rex :: 0x0F#8 :: 0x3A#8 :: 0x14#8 :: bs) = .ok (i, rest)) :
    ∃ j, decode .mode64 (0x66#8 :: (rex ^^^ 0x08#8) :: 0x0F#8 :: 0x3A#8 :: 0x14#8 :: bs) = .ok (j, rest) ∧
      j.bytes = 1 ∧ ∀ s, s.mode = .mode64 → exec j s = exec i s := by
  obtain ⟨op, a, ht, rfl⟩ := (decode_legacy_rex_ok_iff hrex).mp h
  obtain rfl := ht.opcode_eq
  obtain ⟨h4, hflip⟩ := rex_flipW rex
  refine ⟨.pextrb (some (rexOf (rex ^^^ 0x08#8))) a,
    (decode_legacy_rex_ok_iff (h4.trans hrex)).mpr ⟨_, a, ht, rfl⟩, rfl, fun s hs => ?_⟩
  change exec _ s = exec (.pextrb (some (rexOf rex)) a) s
  have hl : (Instr.pextrb (some (rexOf (rex ^^^ 0x08#8))) a).lead =
      (Instr.pextrb (some (rexOf rex)) a).lead.withW (!rex.getLsbD 3) := by
    rw [hflip]
    rfl
  refine exec_eq_of_lead_withW hl rfl rfl ?_
  rw [hs]
  rfl

/-- Settles O41: the width by the opcode map, and the other byte string class by class. -/
theorem wBitRules : Obligations.WBitRules := by
  intro m op bs i rest
  refine ⟨fun rex hrex h => ?_, fun h => ?_, fun b1 b2 h => ?_, fun p0 p1 p2 h => ?_⟩
  · obtain ⟨-, -, hb⟩ := decode_legacy_rex_row hrex h
    refine ⟨?_, ?_⟩
    · rintro rfl
      exact hb
    · rintro rfl
      exact ⟨hb, decode_legacy_flipW hrex h⟩
  · obtain ⟨-, -, hb⟩ := decode_legacy_none_row h
    exact hb
  · obtain ⟨-, -, hb⟩ := decode_vex_row h
    refine ⟨?_, ?_, fun hw => ?_⟩
    · rintro rfl
      exact hb
    · rintro rfl
      exact hb
    · obtain ⟨-, -, j, hj, hbj, -, hex⟩ := vexWIgnored m b1 b2 op bs hw.symm i rest h
      exact ⟨j, hj, hbj, hex⟩
  · obtain ⟨-, -, hb⟩ := decode_evex_row h
    refine ⟨?_, ?_, fun hw => ?_⟩
    · rintro rfl
      exact hb
    · rintro rfl
      exact hb
    · obtain ⟨j, hj, hbj, -, hex⟩ := decode_evex_flipW (hw.symm.imp_left And.left) (hw.imp_right And.right) h
      exact ⟨j, hj, hbj, hex⟩

/-! ## The restrictions of R68, R71 and R72 -/

/-- Settles O45: the fixed fields of an accepted EVEX prefix, and X in the register form. -/
theorem evexAdmittedOnlyCanonical : Obligations.EvexAdmittedOnlyCanonical := by
  intro m p0 p1 p2 bs i rest h
  obtain ⟨hf, op, a, ht, hn, rfl⟩ := decode_evex_ok_iff.mp h
  have hlow : ∀ b : Byte, b.extractLsb' 0 5 = 8#5 →
      b.extractLsb' 0 3 = 0#3 ∧ b.getLsbD 4 = false ∧ b.getLsbD 3 = true := by decide
  obtain ⟨haaa, hb, hv⟩ := hlow p2 hf.low
  refine ⟨haaa, hf.z, hb, hv, hf.p0b3, hf.p1b2, fun hreg => ?_⟩
  obtain ⟨hx, -⟩ := evexArgsReject_eq_none.mp hn
  rw [evexRow_args] at hreg
  simpa [evexOf, hreg] using hx

/-- Settles O46: the extension bits are a fixed field in 32-bit mode, and an admitted encoding has none set there. -/
theorem mode32ExtensionBitsAreOnes : Obligations.Mode32ExtensionBitsAreOnes := by
  refine ⟨fun b1 bs i rest h => ?_, fun p0 bs i rest h => ?_, fun bs i rest h => ?_⟩
  · obtain ⟨_, _, _, _, _, _, hbs, hext, -⟩ := decodeVex_ok (m := .mode32) h
    obtain ⟨rfl, -⟩ := List.cons.inj hbs
    exact hext rfl
  · obtain ⟨_, _, _, _, _, _, _, hbs, hext, -⟩ := decodeEvex_ok (m := .mode32) h
    obtain ⟨rfl, -⟩ := List.cons.inj hbs
    exact hext rfl
  · obtain ⟨hw, -⟩ := decode_ok h
    obtain ⟨hR, -, -, hRHi⟩ := ext_of_mode32 hw
    have hlt : ∀ r : BitVec 3, (BitVec.ofBool false ++ BitVec.ofBool false ++ r).toNat < 8 := by decide
    refine ⟨?_, fun s d hd => dest_toNat_lt_of_mode32 hw hd⟩
    rw [srcNum, hR, hRHi]
    exact hlt i.args.reg

/-- Settles O32: no admitted encoding of 32-bit mode has 8 bytes, and 48 is no REX byte there. -/
theorem noQwordExtractInMode32 : Obligations.NoQwordExtractInMode32 := by
  refine ⟨fun bs i rest h => ?_, fun b1 b2 bs => rfl⟩
  obtain ⟨hw, -⟩ := decode_ok h
  exact bytes_ne_eight_of_mode32 hw

/-! ## Refused prefixes and worked examples (R54, 40_pextr_legacy.md to 42_vpextr_evex.md) -/

/-- Settles O39: each byte string is decoded. -/
theorem workedExamplesDecode : Obligations.WorkedExamplesDecode := by
  unfold Obligations.WorkedExamplesDecode
  decide

/-- A byte that may not stand there, where the escape is wanted. -/
theorem decodeEscape_refused {m : Mode} {rex : Option Rex} {b : Byte} (he : b ≠ 0x0F#8)
    (h : b = 0xC4#8 ∨ b = 0x62#8 ∨ isLegacyPrefix b = true ∨ isRex m b = true) (e2 op : Byte) (bs : List Byte) :
    decodeEscape m rex (b :: e2 :: op :: bs) = .error .prefixNotAdmitted := by
  rw [decodeEscape, if_pos he]
  by_cases hc : b = 0xC4#8 ∨ b = 0x62#8
  · rw [if_pos hc]
  · have hr : (isLegacyPrefix b || isRex m b) = true := by
      rw [Bool.or_eq_true]
      tauto
    rw [if_neg hc, rejectByte, if_pos hr]

/-- A byte that may not stand there, at the head. -/
theorem decode_first_refused {m : Mode} {b : Byte} (h66 : b ≠ 0x66#8) (hC4 : b ≠ 0xC4#8) (h62 : b ≠ 0x62#8)
    (h : isLegacyPrefix b = true ∨ isRex m b = true) (bs : List Byte) :
    decode m (b :: bs) = .error .prefixNotAdmitted := by
  rw [decode, if_neg h66, if_neg hC4, if_neg h62, rejectByte, if_pos (by rwa [Bool.or_eq_true])]

theorem isRex_eq_false {b : Byte} (h : b.extractLsb' 4 4 ≠ 4#4) (m : Mode) : isRex m b = false := by
  simp [isRex, h]

theorem decode_66_of_not_isRex {m : Mode} {b : Byte} (h : isRex m b = false) (bs : List Byte) :
    decode m (0x66#8 :: b :: bs) = decodeEscape m none (b :: bs) := by
  change decodeLegacy m (b :: bs) = _
  rw [decodeLegacy, if_neg (by simp [h])]

/-- Settles O44: none of these bytes is the escape, and each is C4, 62, a legacy prefix or a REX byte. -/
theorem otherPrefixesRefused : Obligations.OtherPrefixesRefused := by
  intro m bs
  have hleg : ∀ p ∈ [0xF0#8, 0xF2#8, 0xF3#8, 0x26#8, 0x2E#8, 0x36#8, 0x3E#8, 0x64#8, 0x65#8, 0x67#8],
      isLegacyPrefix p = true ∧ p ≠ 0x66#8 ∧ p ≠ 0xC4#8 ∧ p ≠ 0x62#8 ∧ p ≠ 0x0F#8 ∧ p.extractLsb' 4 4 ≠ 4#4 := by
    decide
  have hlead : ∀ p ∈ [0x66#8, 0xC4#8, 0x62#8], (p = 0xC4#8 ∨ p = 0x62#8 ∨ isLegacyPrefix p = true) ∧
      p ≠ 0x0F#8 ∧ p.extractLsb' 4 4 ≠ 4#4 := by decide
  have hrex : ∀ p : Byte, p.extractLsb' 4 4 = 4#4 → p ≠ 0x66#8 ∧ p ≠ 0xC4#8 ∧ p ≠ 0x62#8 ∧ p ≠ 0x0F#8 ∧
      isRex .mode64 p = true := by decide
  refine ⟨fun p hp => ?_, fun p hp b1 b2 => ?_, fun rex h4 => ?_⟩
  · obtain ⟨hl, h66, hC4, h62, he, h4⟩ := hleg p hp
    refine ⟨decode_first_refused h66 hC4 h62 (.inl hl) bs, fun b1 b2 => ?_⟩
    rw [decode_66_of_not_isRex (isRex_eq_false h4 m)]
    exact decodeEscape_refused he (.inr (.inr (.inl hl))) b1 b2 bs
  · obtain ⟨hl, he, h4⟩ := hlead p hp
    rw [decode_66_of_not_isRex (isRex_eq_false h4 m)]
    exact decodeEscape_refused he (by tauto) b1 b2 bs
  · obtain ⟨h66, hC4, h62, -, hr⟩ := hrex rex h4
    refine ⟨decode_first_refused h66 hC4 h62 (.inr hr) bs, fun rex' b1 b2 h4' => ?_⟩
    obtain ⟨-, -, -, he, hr'⟩ := hrex rex' h4'
    rw [decode_legacy_rex h4]
    exact decodeEscape_refused he (.inr (.inr (.inr hr'))) b1 b2 bs

end Sys2Proof.Machine
end

section
/-! PROOFS. The operands (30_encoding.md R58 to R63, R69): register numbers as numbers, the effective address as a sum
in the integers modulo 2^64 and in 32-bit words; and the lanes of a source put together again
(95_test_vectors.md section 2.6). -/

namespace Sys2Proof.Machine

/-! ## Register numbers (R58, R59) -/

theorem gprNum_toNat (ext : Bool) (r : BitVec 3) : (gprNum ext r).toNat = 8 * ext.toNat + r.toNat := by
  revert ext r; decide

theorem srcNum_toNat (l : Lead) (reg : BitVec 3) :
    (srcNum l reg).toNat = 16 * (extRHi l).toNat + 8 * (extR l).toNat + reg.toNat := by
  have h : ∀ (hi r : Bool) (reg : BitVec 3),
      (BitVec.ofBool hi ++ BitVec.ofBool r ++ reg).toNat = 16 * hi.toNat + 8 * r.toNat + reg.toNat := by decide
  exact h (extRHi l) (extR l) reg

/-- Settles O34: the extension bits are those of the prefix, and the numbers are the model's fields put together. -/
theorem registerNumbers : Obligations.RegisterNumbers := by
  intro i s bitB bitR bitRHi
  have hB : bitB = extB i.lead := by
    rcases h : i.lead with (_ | _) | _ | _ <;> simp [bitB, extB, h]
  have hR : bitR = extR i.lead := by
    rcases h : i.lead with (_ | _) | _ | _ <;> simp [bitR, extR, h]
  have hRHi : bitRHi = extRHi i.lead := by
    rcases h : i.lead with (_ | _) | _ | _ <;> simp [bitRHi, extRHi, h]
  refine ⟨fun rm hrm => ⟨_, destOf_eq_reg_iff.mpr ⟨rm, hrm, rfl⟩, ?_⟩, ⟨_, rfl, ?_⟩, fun rm hl hrm => ?_⟩
  · rw [gprNum_toNat, hB]
  · rw [srcNum_toNat, hRHi, hR]
  · refine destOf_eq_reg_iff.mpr ⟨rm, hrm, ?_⟩
    rw [hl]
    exact gprNum_false rm

/-! ## The effective address in 64-bit mode (R60 to R62, R69) -/

/-- A 64-bit register is the integer it holds. -/
theorem gpr_eq_ofInt (s : State) (r : BitVec 4) : s.gpr r = BitVec.ofInt 64 (s.gpr r).toNat := by
  rw [BitVec.ofInt_natCast, BitVec.ofNat_toNat, BitVec.setWidth_eq]

theorem effAddr_mode64 {s : State} {l : Lead} {len n : Nat} {m : Mem} {z : Int} (hm : s.mode = .mode64)
    (h : addressSum s l len n m = BitVec.ofInt 64 z) : (effAddr s l len n m : Int) = z % 2 ^ 64 := by
  rw [effAddr, h, hm, Mode.bits, Nat.mod_eq_of_lt (BitVec.isLt _), BitVec.toNat_ofInt]
  exact Int.toNat_of_nonneg (Int.emod_nonneg _ (by decide))

theorem shiftLeft_ofInt (z : Int) (k : Nat) : BitVec.ofInt 64 z <<< k = BitVec.ofInt 64 (z * 2 ^ k) := by
  have hpow : BitVec.twoPow 64 k = BitVec.ofInt 64 (2 ^ k) := by
    have hcast : (2 : Int) ^ k = ((2 ^ k : Nat) : Int) := by norm_cast
    apply BitVec.eq_of_toNat_eq
    rw [hcast, BitVec.ofInt_natCast, BitVec.toNat_twoPow, BitVec.toNat_ofNat]
  rw [BitVec.shiftLeft_eq_mul_twoPow, hpow, BitVec.ofInt_mul]

/-- Index 100b is none with X = 0 only. -/
theorem gprNum_eq_four_iff (ext : Bool) (r : BitVec 3) : gprNum ext r = 4#4 ↔ ext = false ∧ r = 4#3 := by
  revert ext r; decide

/-- Settles O35: every summand is an integer, and the sum of words is the word of the sum. -/
theorem effectiveAddressMode64 : Obligations.EffectiveAddressMode64 := by
  intro s l len n hm bitB bitX factor disp reg index
  have hB : bitB = extB l := by
    rcases l with (_ | _) | _ | _ <;> rfl
  have hX : bitX = extX l := by
    rcases l with (_ | _) | _ | _ <;> rfl
  have hreg (ext : Bool) (r : BitVec 3) : s.gpr (gprNum ext r) = BitVec.ofInt 64 (reg ext r) := by
    have hn : BitVec.ofNat 4 (8 * ext.toNat + r.toNat) = gprNum ext r := by
      rw [← gprNum_toNat, BitVec.ofNat_toNat, BitVec.setWidth_eq]
    simp only [reg, hn]
    exact gpr_eq_ofInt s _
  have hdisp (d : Disp) : dispValue l n d = BitVec.ofInt 64 (disp d) := by
    have hscale : disp8Scale l n = BitVec.ofInt 64 factor := by
      cases l with
      | evex p => exact (BitVec.ofInt_natCast 64 n).symm
      | legacy rex => rfl
      | vex p => rfl
    cases d with
    | absent => rfl
    | d8 v =>
      rw [dispValue, hscale]
      exact (BitVec.ofInt_mul ..).symm
    | d32 v => rfl
  have hindex (scale : BitVec 2) (idx : BitVec 3) :
      indexValue s l scale idx = BitVec.ofInt 64 (index scale idx) := by
    simp only [indexValue, index, gprNum_eq_four_iff, hX]
    split_ifs
    · rfl
    · rw [hreg, shiftLeft_ofInt]
  refine ⟨fun rm d => effAddr_mode64 hm ?_, fun d => effAddr_mode64 hm ?_, fun scale idx b d => effAddr_mode64 hm ?_,
    fun scale idx d => effAddr_mode64 hm ?_⟩
  · rw [addressSum, hreg, hdisp, hB, BitVec.ofInt_add]
  · rw [BitVec.ofInt_add, BitVec.ofInt_natCast, addressSum, hm]
    rfl
  · rw [addressSum, hreg, hindex, hdisp, hB, BitVec.ofInt_add, BitVec.ofInt_add]
  · rw [addressSum, hindex, BitVec.ofInt_add]
    rfl

/-! ## The effective address in 32-bit mode (R63) -/

theorem effAddr_mode32 {s : State} (hm : s.mode = .mode32) (l : Lead) (len n : Nat) (m : Mem) :
    effAddr s l len n m = ((addressSum s l len n m).setWidth 32).toNat := by
  rw [effAddr, hm, Mode.bits, BitVec.toNat_setWidth]

theorem setWidth_ofInt (z : Int) : (BitVec.ofInt 64 z).setWidth 32 = BitVec.ofInt 32 z := by
  apply BitVec.eq_of_toNat_eq
  rw [BitVec.toNat_setWidth, BitVec.toNat_ofInt, BitVec.toNat_ofInt]
  omega

/-- Sign extension to 64 bits cut to 32 bits is sign extension to 32 bits. -/
theorem setWidth_signExtend {w : Nat} (v : BitVec w) : (v.signExtend 64).setWidth 32 = v.signExtend 32 :=
  setWidth_ofInt v.toInt

theorem setWidth_add_32 (x y : BitVec 64) : (x + y).setWidth 32 = x.setWidth 32 + y.setWidth 32 :=
  BitVec.setWidth_add x y (by decide)

/-- Settles O36: every summand cut to 32 bits is the summand of R63, and cutting commutes with the sum. -/
theorem effectiveAddressMode32 : Obligations.EffectiveAddressMode32 := by
  intro s l len n hm hl reg disp index
  obtain ⟨hX, hB⟩ : extX l = false ∧ extB l = false := by
    obtain rfl | ⟨p, rfl, hx, hb⟩ | ⟨p, rfl, hx, hb⟩ := hl
    · exact ⟨rfl, rfl⟩
    · exact ⟨hx, hb⟩
    · exact ⟨hx, hb⟩
  have hreg (r : BitVec 3) : (s.gpr (gprNum false r)).setWidth 32 = reg r := by rw [gprNum_false]
  have hdisp (d : Disp) : (dispValue l n d).setWidth 32 = disp d := by
    cases d with
    | absent => rfl
    | d8 v =>
      rw [dispValue, BitVec.setWidth_mul _ _ (by decide), setWidth_signExtend]
      cases l with
      | evex p => simp only [disp, disp8Scale, BitVec.setWidth_ofNat_of_le (show 32 ≤ 64 by decide)]
      | legacy rex => exact BitVec.mul_one _
      | vex p => exact BitVec.mul_one _
    | d32 v => exact (setWidth_signExtend v).trans (BitVec.signExtend_eq v)
  have hindex (scale : BitVec 2) (idx : BitVec 3) :
      (indexValue s l scale idx).setWidth 32 = index scale idx := by
    simp only [indexValue, index, gprNum_eq_four_iff, hX, true_and]
    split_ifs
    · rfl
    · rw [BitVec.setWidth_shiftLeft_of_le (by decide), hreg]
  simp only [effAddr_mode32 hm]
  refine ⟨fun rm d => ?_, fun d => ?_, fun scale idx b d => ?_, fun scale idx d => ?_⟩
  · rw [addressSum, setWidth_add_32, hB, hreg, hdisp]
  · rw [addressSum, hm]
    exact congrArg BitVec.toNat (hdisp (.d32 d))
  · rw [addressSum, setWidth_add_32, setWidth_add_32, hB, hreg, hindex, hdisp]
  · rw [addressSum, setWidth_add_32, hindex]
    exact congrArg (fun x => (index scale idx + x).toNat) (hdisp (.d32 d))

/-! ## The lanes together (95_test_vectors.md section 2.6) -/

/-- Settles O4: neighbouring lanes are one longer field, up to the whole source. -/
theorem lanesReassembleSource : Obligations.LanesReassembleSource := by
  intro src
  simp only [extractByte_eq, extractDword_eq, extractQword_eq]
  refine ⟨?_, ?_, ?_⟩
  all_goals
    repeat rw [BitVec.extractLsb'_append_extractLsb'_eq_extractLsb' (by rfl)]
    exact BitVec.extractLsb'_eq_self

end Sys2Proof.Machine
end
